-- ==== Sys2Proof/Word.lean ====
section
/-! DEFINITION. The word types of the IE parser: bytes of the buffer and the 16-bit descriptor. -/

namespace Sys2Proof

/-- One byte of `BUF` (10_state.md R11). -/
abbrev Byte := BitVec 8

/-- The 16-bit descriptor of an IE (30_encoding.md R60). -/
abbrev Desc := BitVec 16

end Sys2Proof
end

