-- ==== Sys2Proof/Config.lean ====
section
/-! DEFINITION. The parameters of the IE parser: those the document fixes (00_scope.md R5) and those it leaves to
the implementation (00_scope.md R6). -/

namespace Sys2Proof

/-- What a buffer byte that `State.buf` does not list reads as.
DESIGN CHOICE, unsafe (log entry 4): the spec leaves `BUF` unspecified at reset (10_state.md R30). -/
def Config.unwrittenByte : Byte := 0

/-- `DESC_BYTES`: bytes in every descriptor (R5). -/
def Config.descBytes : Nat := 2

/-- `HDR_ID_LIST_TERM_1` (R5): reserved, not specially handled by the walker. -/
def Config.hdrIdListTerm1 : BitVec 8 := 0x7e

/-- `HDR_ID_LIST_TERM_2` (R5): signals the end of the IE sequence. -/
def Config.hdrIdListTerm2 : BitVec 8 := 0x7f

/-- `PLD_GID_MLME` (R5): the container of sub-IEs. -/
def Config.pldGidMlme : BitVec 4 := 1

/-- The id numbers that the document names and does not give (00_scope.md R6, D5). Everything that decodes
takes them as an argument; `defaultIds` in Decode.lean holds the spec's defaults. -/
structure Ids where
  /-- `HDR_ID_ACKNACK_TC` -/
  acknackTc : BitVec 8
  /-- `SUB_S_ID_SYNC` -/
  sync : BitVec 7
  /-- `SUB_S_ID_TIMESLOT` -/
  timeslot : BitVec 7
  /-- `SUB_S_ID_SLOTFRAME_LINK` -/
  slotframeLink : BitVec 7
  /-- `SUB_L_ID_CHSEQ` -/
  chseq : BitVec 4
deriving DecidableEq, Repr

/-- The constraints on the ids in R6's last column. -/
abbrev Ids.valid (p : Ids) : Prop :=
  p.acknackTc ≠ Config.hdrIdListTerm2 ∧ p.acknackTc ≠ Config.hdrIdListTerm1 ∧
  p.sync ≠ p.timeslot ∧ p.slotframeLink ≠ p.sync ∧ p.slotframeLink ≠ p.timeslot

/-- The parameters of R6: the five ids, and `LEN_W`, the width of `LEN`, `CURSOR` and `CONSUMED`. Everything that depends
on one takes it as an argument; `defaultParams` in Decode.lean holds the spec's defaults. -/
structure Params where
  ids : Ids
  /-- `LEN_W` -/
  lenW : Nat
deriving DecidableEq, Repr

/-- The constraints of R6: those on the ids, and `LEN_W` at least 1. -/
abbrev Params.valid (p : Params) : Prop := p.ids.valid ∧ 1 ≤ p.lenW

/-- `BUF_CAP = 2^LEN_W - 1`: how many bytes the buffer holds (10_state.md R11). -/
def Params.bufCap (p : Params) : Nat := 2 ^ p.lenW - 1

end Sys2Proof
end

