-- ==== Sys2Proof/Syntax.lean ====
section
/-! DEFINITION. The instructions of the IE parser: one constructor per row of spec/opcode_table.json. -/

namespace Sys2Proof

/-- The walker's decode mode (10_state.md R13). -/
inductive Mode
  | notNested
  | nested
deriving DecidableEq, Repr

/-- One IE as its descriptor gives it (30_encoding.md R68), or a host write of `CTRL` (45_host_commands.md R151,
R152). An IE carries the fields of its layout that its row leaves free: the declared length, and the id where
the row stands for several ids. Its payload stays in the buffer and is read when it runs. -/
inductive Instr
  /-- `HIE.ACKNACK_TC` (R110). -/
  | hieAcknackTc (len : BitVec 7)
  /-- `HIE.LIST_TERM2` (R111). -/
  | hieListTerm2 (len : BitVec 7)
  /-- `HIE.LIST_TERM1` (R112). -/
  | hieListTerm1 (len : BitVec 7)
  /-- `HIE.OTHER` (R113). -/
  | hieOther (id : BitVec 8) (len : BitVec 7)
  /-- `PIE.MLME` (R120). -/
  | pieMlme (len : BitVec 11)
  /-- `PIE.OTHER` (R121). -/
  | pieOther (id : BitVec 4) (len : BitVec 11)
  /-- `SUBS.SYNC` (R130). -/
  | subsSync (len : BitVec 8)
  /-- `SUBS.TIMESLOT` (R131). -/
  | subsTimeslot (len : BitVec 8)
  /-- `SUBS.SLOTFRAME_LINK` (R133). -/
  | subsSlotframeLink (len : BitVec 8)
  /-- `SUBS.OTHER` (R132). -/
  | subsOther (id : BitVec 7) (len : BitVec 8)
  /-- `SUBL.CHSEQ` (R140). -/
  | sublChseq (len : BitVec 11)
  /-- `SUBL.OTHER` (R141). -/
  | sublOther (id : BitVec 4) (len : BitVec 11)
  /-- `START` (R151): a write of `CTRL` with bit 0 set; the operand is the new `DISCARD`. -/
  | start (discard : Bool)
  /-- `SET_DISCARD` (R152): a write of `CTRL` with bit 0 clear. -/
  | setDiscard (discard : Bool)
deriving DecidableEq, Repr

end Sys2Proof
end

