-- ==== Sys2Proof/WellFormed.lean ====
section
/-! DEFINITION. Which terms of `Instr` stand for an encoding: the "other" rows exclude the ids that a row of their
layout names (30_encoding.md R68). A declared length is never ill-formed: a wrong one raises `InvalidLength` (R69). -/

namespace Sys2Proof

/-- The ids of the header layout that have a row of their own (R68). -/
def Ids.namesHeader (p : Ids) (id : BitVec 8) : Bool :=
  id == p.acknackTc || id == Config.hdrIdListTerm2 || id == Config.hdrIdListTerm1

/-- The ids of the short sub-IE layout that have a row of their own (R68, R133). -/
def Ids.namesShort (p : Ids) (id : BitVec 7) : Bool :=
  id == p.sync || id == p.timeslot || id == p.slotframeLink

/-- Well-formed: the id of an "other" row is none that another row of the same layout names. -/
def Instr.wf (p : Ids) : Instr → Bool
  | .hieAcknackTc _ => true
  | .hieListTerm2 _ => true
  | .hieListTerm1 _ => true
  | .hieOther id _ => !p.namesHeader id
  | .pieMlme _ => true
  | .pieOther id _ => id != Config.pldGidMlme
  | .subsSync _ => true
  | .subsTimeslot _ => true
  | .subsSlotframeLink _ => true
  | .subsOther id _ => !p.namesShort id
  | .sublChseq _ => true
  | .sublOther id _ => id != p.chseq
  | .start _ => true
  | .setDiscard _ => true

end Sys2Proof
end

