-- ==== Sys2Proof/Decode.lean ====
section
/-! DEFINITION. The descriptor unpackers and packers, the decoder and, after it, the encoder (30_encoding.md R60 to
R69; the host's `CTRL` write: 10_state.md R23). -/

namespace Sys2Proof

/-- The defaults of the five id parameters (00_scope.md R6).
UNVERIFIED, unsafe (log entry 2): the values are the spec's own, which it marks as general knowledge
(93_implementation_defined.md G1). -/
def defaultIds : Ids where
  acknackTc := 0x1e
  sync := 0x1a
  timeslot := 0x1c
  slotframeLink := 0x1b
  chseq := 0x9

/-- The defaults of all the parameters: the ids above, and `LEN_W = 12` (00_scope.md R6, D4).
DESIGN CHOICE, unsafe for a block of another width (log entry 1): the spec leaves `LEN_W` open and suggests 12. -/
def defaultParams : Params where
  ids := defaultIds
  lenW := 12

/-- The type bit b15 (R62). -/
def typeBit (d : Desc) : Bool := d.getLsbD 15

/-- `unpack_hdr(d) = (len, id)` with `len = d[6:0]`, `id = d[14:7]` (R62). -/
def unpackHdr (d : Desc) : BitVec 7 × BitVec 8 := (d.extractLsb' 0 7, d.extractLsb' 7 8)

/-- `unpack_pld(d) = (len, id)` with `len = d[10:0]`, `id = d[14:11]` (R63). -/
def unpackPld (d : Desc) : BitVec 11 × BitVec 4 := (d.extractLsb' 0 11, d.extractLsb' 11 4)

/-- `unpack_subs(d) = (len, id)` with `len = d[7:0]`, `id = d[14:8]` (R64). -/
def unpackSubs (d : Desc) : BitVec 8 × BitVec 7 := (d.extractLsb' 0 8, d.extractLsb' 8 7)

/-- `unpack_subl(d)`: the arithmetic of R63 (R65). -/
def unpackSubl (d : Desc) : BitVec 11 × BitVec 4 := (d.extractLsb' 0 11, d.extractLsb' 11 4)

/-- The header row an id selects (R68). -/
def headerRow (p : Ids) (id : BitVec 8) (len : BitVec 7) : Instr :=
  if id = p.acknackTc then .hieAcknackTc len
  else if id = Config.hdrIdListTerm2 then .hieListTerm2 len
  else if id = Config.hdrIdListTerm1 then .hieListTerm1 len
  else .hieOther id len

/-- The payload row a group id selects (R68). -/
def payloadRow (id : BitVec 4) (len : BitVec 11) : Instr :=
  if id = Config.pldGidMlme then .pieMlme len else .pieOther id len

/-- The short sub-IE row a sub id selects (R68, R133). -/
def shortRow (p : Ids) (id : BitVec 7) (len : BitVec 8) : Instr :=
  if id = p.sync then .subsSync len
  else if id = p.timeslot then .subsTimeslot len
  else if id = p.slotframeLink then .subsSlotframeLink len
  else .subsOther id len

/-- The long sub-IE row a sub id selects (R68). -/
def longRow (p : Ids) (id : BitVec 4) (len : BitVec 11) : Instr :=
  if id = p.chseq then .sublChseq len else .sublOther id len

/-- A descriptor in a mode (R68, 40_walker.md R93): mode and type bit fix the layout, the id selects the row.
Total: no descriptor is illegal (R69). -/
def decodeDescriptor (p : Ids) (m : Mode) (d : Desc) : Instr :=
  match m, typeBit d with
  | .notNested, false => headerRow p (unpackHdr d).2 (unpackHdr d).1
  | .notNested, true => payloadRow (unpackPld d).2 (unpackPld d).1
  | .nested, false => shortRow p (unpackSubs d).2 (unpackSubs d).1
  | .nested, true => longRow p (unpackSubl d).2 (unpackSubl d).1

/-- The value of a host write of `CTRL` (10_state.md R23): bit 0 is the command `START`, bit 1 is `DISCARD`. -/
def decodeCtrl (v : BitVec 2) : Instr :=
  if v.getLsbD 0 then .start (v.getLsbD 1) else .setDiscard (v.getLsbD 1)

/-- Where an instruction's word stands: a descriptor met in a mode, or the value of a `CTRL` write. -/
inductive Code
  | descriptor (mode : Mode) (d : Desc)
  | ctrlWrite (v : BitVec 2)
deriving DecidableEq, Repr

/-- The decoder, total. -/
def decode (p : Ids) : Code → Instr
  | .descriptor m d => decodeDescriptor p m d
  | .ctrlWrite v => decodeCtrl v

/-- Why bytes hold no descriptor. -/
inductive DecodeError
  /-- Fewer than 2 bytes stand where a descriptor is expected (40_walker.md R92). -/
  | fewerThanTwoBytes
deriving DecidableEq, Repr

/-- The descriptor of its two bytes, low byte first (20_memory.md R41). -/
def descOfBytes (lo hi : Byte) : Desc := hi ++ lo

/-- Decoding at the head of a byte sequence: the low byte of the descriptor first (R41). -/
def decodeBytes (p : Ids) (m : Mode) : List Byte → Except DecodeError (Instr × List Byte)
  | lo :: hi :: rest => .ok (decodeDescriptor p m (descOfBytes lo hi), rest)
  | _ => .error .fewerThanTwoBytes

/-- The declared length of an IE in bytes (R60); a `CTRL` write has none. -/
def Instr.declaredLen : Instr → Nat
  | .hieAcknackTc len => len.toNat
  | .hieListTerm2 len => len.toNat
  | .hieListTerm1 len => len.toNat
  | .hieOther _ len => len.toNat
  | .pieMlme len => len.toNat
  | .pieOther _ len => len.toNat
  | .subsSync len => len.toNat
  | .subsTimeslot len => len.toNat
  | .subsSlotframeLink len => len.toNat
  | .subsOther _ len => len.toNat
  | .sublChseq len => len.toNat
  | .sublOther _ len => len.toNat
  | .start _ => 0
  | .setDiscard _ => 0

/-- A word of the table's descriptor space says nothing of the mode it is met in. It is read as nested exactly
when the nested layouts name its id, and else as not-nested.
DESIGN CHOICE, safe (log entry 11): only `decodeTableWord` and `State.withFetchWord` use it, no step does. -/
def tableMode (p : Ids) (d : Desc) : Mode :=
  match decodeDescriptor p .nested d with
  | .subsOther _ _ => .notNested
  | .sublOther _ _ => .notNested
  | _ => .nested

/-- The first two bytes of a table word, at the lowest address first (R41). -/
def tableBytes (w : Nat) : List Byte := [BitVec.ofNat 8 w, BitVec.ofNat 8 (w / 256)]

/-- The descriptor that a table word holds. -/
def tableDesc (w : Nat) : Desc := BitVec.ofNat 16 w

/-- What the decoder reads from a word of spec/opcode_table.json. The two rows of the `CTRL` write have 2 bits, so
one byte; every descriptor row has 16. -/
def decodeTableWord (nbits w : Nat) : Option Instr :=
  if nbits ≤ 8 then some (decodeCtrl (BitVec.ofNat 2 w))
  else
    match decodeBytes defaultIds (tableMode defaultIds (tableDesc w)) (tableBytes w) with
    | .ok (i, _) => some i
    | .error _ => none

/-- The packers of R66: the fields side by side as in R60's picture, the type bit first. -/
def packHdr (id : BitVec 8) (len : BitVec 7) : Desc := 0#1 ++ id ++ len

/-- `pack_pld` (R66). -/
def packPld (id : BitVec 4) (len : BitVec 11) : Desc := 1#1 ++ id ++ len

/-- `pack_subs` (R66). -/
def packSubs (id : BitVec 7) (len : BitVec 8) : Desc := 0#1 ++ id ++ len

/-- `pack_subl` (R66). -/
def packSubl (id : BitVec 4) (len : BitVec 11) : Desc := 1#1 ++ id ++ len

/-- The 2-bit value of a `CTRL` write: `DISCARD` above `START` (10_state.md R23). -/
def packCtrl (discard start : Bool) : BitVec 2 := BitVec.ofBool discard ++ BitVec.ofBool start

/-- The encoder: the mode an instruction is met in and its word (R60, R68; 10_state.md R23). -/
def encode (p : Ids) : Instr → Code
  | .hieAcknackTc len => .descriptor .notNested (packHdr p.acknackTc len)
  | .hieListTerm2 len => .descriptor .notNested (packHdr Config.hdrIdListTerm2 len)
  | .hieListTerm1 len => .descriptor .notNested (packHdr Config.hdrIdListTerm1 len)
  | .hieOther id len => .descriptor .notNested (packHdr id len)
  | .pieMlme len => .descriptor .notNested (packPld Config.pldGidMlme len)
  | .pieOther id len => .descriptor .notNested (packPld id len)
  | .subsSync len => .descriptor .nested (packSubs p.sync len)
  | .subsTimeslot len => .descriptor .nested (packSubs p.timeslot len)
  | .subsSlotframeLink len => .descriptor .nested (packSubs p.slotframeLink len)
  | .subsOther id len => .descriptor .nested (packSubs id len)
  | .sublChseq len => .descriptor .nested (packSubl p.chseq len)
  | .sublOther id len => .descriptor .nested (packSubl id len)
  | .start discard => .ctrlWrite (packCtrl discard true)
  | .setDiscard discard => .ctrlWrite (packCtrl discard false)

/-- The bytes of a descriptor in the buffer, the low byte first (R66). -/
def descBytes (d : Desc) : List Byte := [d.extractLsb' 0 8, d.extractLsb' 8 8]

end Sys2Proof
end

