-- ==== Sys2Proof/Machine/State.lean ====
section
/-! DEFINITION. The architectural state of the IE parser (10_state.md R10), the inputs of its environment, the reasons
a step can stop, and the state after reset. -/

namespace Sys2Proof.Machine

/-- The buffer space (10_state.md R11): the bytes that differ from `Config.unwrittenByte`, by offset, offsets
strictly rising (`Memory.wf` in Ops.lean). -/
abbrev Memory := List Host.Cell

/-- `STATE` (10_state.md R24). -/
inductive ParserState
  /-- No parse since reset. -/
  | idle
  /-- A parse is in progress; the parser is enabled. -/
  | run
  /-- The last parse ended successfully. -/
  | done
  /-- The last parse ended in a failure. -/
  | error
deriving DecidableEq, Repr

/-- The four hard failures of a parse (60_exceptions.md R170). `ERR = None` is `none` of `State.err`; the encoder
errors 5 and 6 and the value 7 are never produced (R178). -/
inductive ParseFailure
  | truncatedDescriptor
  | truncatedPayload
  | invalidLength
  | overrunNestedGroup
deriving DecidableEq, Repr

/-- Why a successful parse ended (10_state.md R24). `END_CAUSE = NONE` is `none` of `State.endCause`. -/
inductive EndCause
  | listTerm
  | groupDone
  | exhausted
deriving DecidableEq, Repr

/-- The result record: the seven result registers (10_state.md R14 to R20). -/
structure Record where
  /-- `TIME_CORRECTION`, 16 bits, two's complement (R14). -/
  timeCorrection : BitVec 16
  /-- `IS_NACK`, 1 bit (R15). -/
  isNack : Bool
  /-- `ASN_LS4B`, 32 bits (R16). -/
  asnLs4b : BitVec 32
  /-- `ASN_MS1B`, 8 bits (R17). -/
  asnMs1b : BitVec 8
  /-- `JOIN_PRIORITY`, 8 bits (R18). -/
  joinPriority : BitVec 8
  /-- `TSCH_TIMESLOT_ID`, 8 bits (R19). -/
  tschTimeslotId : BitVec 8
  /-- `CHANNEL_HOPPING_SEQUENCE_ID`, 8 bits (R20). -/
  channelHoppingSequenceId : BitVec 8
deriving DecidableEq, Repr

/-- What a reset leaves unspecified (10_state.md R30, 70_reset_and_hazards.md R191): the contents of the buffer, as
cells to be stored in order, and the result registers. A reset event carries its draw. -/
structure ResetDraw where
  buf : List Host.Cell
  record : Record
deriving DecidableEq, Repr

/-- The host's commands (45_host_commands.md R150). `START` is `writeReg 0 v` with bit 0 of `v` set (R151). The value of
a register access is a number, the register's bits read as unsigned, because the spec gives the bus no data width
(10_state.md R28).
DESIGN CHOICE, safe (log entry 8). -/
inductive HostCommand
  | writeReg (n : Nat) (v : Nat)
  | readReg (n : Nat)
  | writeBuf (a : Nat) (b : Byte)
  | readBuf (a : Nat)
deriving DecidableEq, Repr

/-- What a read returned to the host (R154, R155). -/
inductive HostReply
  | reg (n : Nat) (v : Nat)
  | byte (a : Nat) (b : Byte)
deriving DecidableEq, Repr

/-- Whose turn it is: the interleaving of parser steps, host commands and resets is free (10_state.md R33,
45_host_commands.md R157), so it is data that the step reads.
DESIGN CHOICE, safe (log entry 5). -/
inductive Turn
  | parser
  | host (c : HostCommand)
  | reset (d : ResetDraw)
deriving DecidableEq, Repr

end Sys2Proof.Machine

namespace Sys2Proof.Machine

/-- The state of the machine: the tuple of 10_state.md R10, and the environment around the block (`turns`,
`replies`, the model's own). The three registers of `LEN_W` bits are numbers, so that one state type serves every `LEN_W`:
none of them can overflow (40_walker.md R97), a host write of `LEN` is reduced to the width, and the invariant of
Safety.lean says that all three fit it (log entry 1). -/
structure State where
  /-- `BUF` (R11). -/
  buf : Memory
  /-- `LEN`, `LEN_W` bits unsigned (R11, R25). -/
  len : Nat
  /-- `CTRL.DISCARD` (R23). -/
  discard : Bool
  /-- `STATUS.STATE` (R24). -/
  state : ParserState
  /-- `STATUS.ERR` (R24). -/
  err : Option ParseFailure
  /-- `STATUS.END_CAUSE` (R24). -/
  endCause : Option EndCause
  /-- `CURSOR`, `LEN_W` bits unsigned (R12). -/
  cursor : Nat
  /-- `MLME_REM` (R13). -/
  mlmeRem : BitVec 11
  /-- `CONSUMED`, `LEN_W` bits unsigned (R26). -/
  consumed : Nat
  /-- The seven result registers (R14 to R20). -/
  record : Record
  /-- The model's own: what acts next, in this order; when empty, the parser (log entry 5). -/
  turns : List Turn
  /-- The model's own: what the host's reads have returned, oldest first (log entry 7). -/
  replies : List HostReply
deriving DecidableEq, Repr

/-- Why the machine stops. -/
inductive Fault
  /-- `MemRead(a, n)` with `a + n > LEN`, which 20_memory.md R42 requires not to happen and R44 derives never does.
  Raised by `memRead`; safe (log entry 10). -/
  | readBeyondLen (a n : Nat)
deriving DecidableEq, Repr

/-- Why an instruction has no meaning. -/
inductive Refusal
  /-- Raised by an arm of `exec` whose instruction has no meaning yet; safe. No arm raises it. -/
  | notModelled (mnemonic : String)
deriving DecidableEq, Repr

/-- The draw that `State.reset` names: zeros.
DESIGN CHOICE, unsafe (log entries 3 and 4): the spec gives no value (10_state.md R30). -/
def ResetDraw.zero : ResetDraw where
  buf := []
  record :=
    { timeCorrection := 0
      isNack := false
      asnLs4b := 0
      asnMs1b := 0
      joinPriority := 0
      tschTimeslotId := 0
      channelHoppingSequenceId := 0 }

/-- The machine right after reset (10_state.md R30, 70_reset_and_hazards.md R190), for one draw of what the spec
leaves unspecified. -/
def State.reset : State where
  buf := []
  len := 0
  discard := false
  state := .idle
  err := none
  endCause := none
  cursor := 0
  mlmeRem := 0
  consumed := 0
  record := ResetDraw.zero.record
  turns := []
  replies := []

end Sys2Proof.Machine
end

