-- ==== Sys2Proof/Machine/Ops.lean ====
section
/-! DEFINITION. The operations that the instructions share: the buffer, `MemRead`, raising a failure and the way out of
it, the successful ending, the truncation check, the parser's verdict and the nested tail. -/

namespace Sys2Proof.Machine

/-- The result of a step. -/
abbrev Result := Host.Outcome State Fault Refusal

/-! ## The buffer (10_state.md R11) -/

/-- The byte at an offset. -/
def Memory.read : Memory → Nat → Byte
  | [], _ => Config.unwrittenByte
  | (k, v) :: m, a => if k = a then v else Memory.read m a

/-- Storing a byte, in the canonical form. -/
def Memory.write : Memory → Nat → Byte → Memory
  | [], a, b => if b = Config.unwrittenByte then [] else [(a, b)]
  | (k, v) :: m, a, b =>
    if a < k then (if b = Config.unwrittenByte then (k, v) :: m else (a, b) :: (k, v) :: m)
    else if a = k then (if b = Config.unwrittenByte then m else (a, b) :: m)
    else (k, v) :: Memory.write m a b

/-- The canonical form in a buffer space of `cap` bytes: offsets strictly rising and below `cap`, no entry equal to what
an unlisted offset reads as. -/
def Memory.wf (cap : Nat) : Memory → Bool
  | [] => true
  | (k, v) :: m =>
    decide (k < cap) && decide (v ≠ Config.unwrittenByte) && m.all (fun c => decide (k < c.1)) && Memory.wf cap m

/-- A host's store at an offset, in a buffer space of `cap` bytes: offsets at and above `cap` do not exist and the store
is ignored (45_host_commands.md R154). -/
def Memory.store (cap : Nat) (m : Memory) (a : Nat) (b : Byte) : Memory :=
  if a < cap then m.write a b else m

/-- A host's load at an offset: offsets at and above `cap` do not exist and read as 0 (R154). -/
def Memory.load (cap : Nat) (m : Memory) (a : Nat) : Byte :=
  if a < cap then m.read a else 0

/-- The buffer that storing these cells in order leaves. -/
def Memory.ofCells (cap : Nat) (cells : List Host.Cell) : Memory :=
  cells.foldl (fun m c => Memory.store cap m c.1 c.2) []

/-- The little-endian value of the `n` bytes from offset `a` (20_memory.md R41, R42). -/
def Memory.littleEndian (m : Memory) (a : Nat) : Nat → Nat
  | 0 => 0
  | n + 1 => (m.read a).toNat + 256 * Memory.littleEndian m (a + 1) n

/-- Storing the low `n` bytes of a number from offset `a`, the lowest first (20_memory.md R41). -/
def Memory.storeNumber (cap : Nat) (m : Memory) (a w : Nat) : Nat → Memory
  | 0 => m
  | n + 1 => Memory.storeNumber cap (Memory.store cap m a (BitVec.ofNat 8 w)) (a + 1) (w / 256) n

/-- `MemRead(a, n)` (00_scope.md R8, 20_memory.md R42), which requires `a + n <= LEN`. -/
def memRead (s : State) (a n : Nat) : Except Fault Nat :=
  if a + n ≤ s.len then .ok (s.buf.littleEndian a n) else .error (.readBeyondLen a n)

/-! ## The walker's quantities (40_walker.md R90) -/

/-- The mode is a function of `MLME_REM` (10_state.md R13). -/
def State.mode (s : State) : Mode := if s.mlmeRem = 0 then .notNested else .nested

/-- `rem0`: the bytes remaining before the descriptor is read (R90). -/
def State.rem0 (s : State) : Nat := s.len - s.cursor

/-- `rem`: the bytes remaining after the descriptor (R90). -/
def State.rem (s : State) : Nat := s.rem0 - 2

/-- `p`: the offset of the first payload byte (R90). -/
def State.payload (s : State) : Nat := s.cursor + 2

/-- `CURSOR <- n` (40_walker.md R100). Every `n` the walker passes is at most `LEN`, so it fits the register (R97). -/
def State.advance (n : Nat) (s : State) : State := { s with cursor := n }

/-- `finish(cause, n)`: the successful end of a parse (40_walker.md R95). -/
def State.finish (cause : EndCause) (n : Nat) (s : State) : State :=
  { s with
    consumed := n
    cursor := n
    endCause := some cause
    state := .done }

/-! ## Failure entry, and the way out of it (60_exceptions.md R175, R179) -/

/-- `raise E`: `ERR <- code(E)`, `STATE <- ERROR`, and nothing else (R175). Control goes nowhere: the parser is
disabled and the host reads `STATUS`. -/
def State.raise (e : ParseFailure) (s : State) : State := { s with err := some e, state := .error }

/-- `START(v)`: begins a parse from offset 0; dropped whole while a parse runs (45_host_commands.md R151). From `ERROR`
it is the way out of a failure, there being no return from one (R179). -/
def State.startParse (discard : Bool) (s : State) : State :=
  if s.state = .run then s
  else
    { s with
      discard := discard
      cursor := 0
      mlmeRem := 0
      consumed := 0
      err := none
      endCause := none
      state := .run }

/-- Reset, possible in any state (70_reset_and_hazards.md R190): the values of 10_state.md R30, and the draw of what R30
leaves unspecified. The environment's lists are no part of the block and stay (log entry 17). -/
def State.takeReset (p : Params) (d : ResetDraw) (s : State) : State where
  buf := Memory.ofCells p.bufCap d.buf
  len := 0
  discard := false
  state := .idle
  err := none
  endCause := none
  cursor := 0
  mlmeRem := 0
  consumed := 0
  record := d.record
  turns := s.turns
  replies := s.replies

/-! ## What every IE shares -/

/-- The truncation check (40_walker.md R98), then the rest of the IE at `p`. -/
def checkPayload (len : Nat) (s : State) (rest : Nat → Result) : Result :=
  if s.rem < len then .next (s.raise .truncatedPayload) else rest s.payload

/-- `if not DISCARD:` before a write of the result record (45_host_commands.md R153). -/
def State.writeRecord (f : Record → Record) (s : State) : State :=
  if s.discard then s else { s with record := f s.record }

/-- What a per-IE parser returns, explicit as 40_walker.md R99 asks. -/
inductive Verdict
  /-- `len` is not the fixed size of the IE; nothing was written. -/
  | rejected
  /-- The fields are written (unless `DISCARD`). -/
  | accepted (s : State)
deriving DecidableEq, Repr

/-- The walker's use of a verdict: `Rejected` raises `InvalidLength`, `Accepted` goes on (R99). -/
def onVerdict (v : Except Fault Verdict) (s : State) (rest : State → State) : Result :=
  match v with
  | .error f => .fault f
  | .ok .rejected => .next (s.raise .invalidLength)
  | .ok (.accepted s') => .next (rest s')

/-- `nested_tail(len, p)`: the budget of the group (40_walker.md R94). -/
def State.nestedTail (len p : Nat) (s : State) : State :=
  if s.mlmeRem.toNat < 2 + len then s.raise .overrunNestedGroup
  else if s.mlmeRem.toNat = 2 + len then State.finish .groupDone (p + len) { s with mlmeRem := 0 }
  else State.advance (p + len) { s with mlmeRem := BitVec.ofNat 11 (s.mlmeRem.toNat - (2 + len)) }

end Sys2Proof.Machine
end

