-- ==== Sys2Proof/Machine/Operands.lean ====
section
/-! DEFINITION. The payload fields of the recognised IEs and the four per-IE parsers (30_encoding.md R67, 40_walker.md
R99): a parser checks the fixed size, reads its fields and writes them to the result record unless `DISCARD`. -/

namespace Sys2Proof.Machine

/-- `LEN_ACKNACK_TC` (00_scope.md R5). -/
def lenAcknackTc : Nat := 2

/-- `LEN_SYNC` (R5). -/
def lenSync : Nat := 6

/-- `LEN_TIMESLOT` (R5). -/
def lenTimeslot : Nat := 1

/-- `LEN_CHSEQ` (R5). -/
def lenChseq : Nat := 1

/-- `IS_NACK` is bit 15 of the time-correction field (30_encoding.md R67). -/
def isNackOf (f : BitVec 16) : Bool := f.getLsbD 15

/-- `sext_12` of bits 11 to 0 of the time-correction field, as 16-bit two's complement (R67, 00_scope.md R8). -/
def timeCorrectionOf (f : BitVec 16) : BitVec 16 := (f.extractLsb' 0 12).signExtend 16

/-- The ACK/NACK time correction parser (41_header_ie.md R110). The payload is read under `DISCARD` too (R153: the same
reads; log entry 15). -/
def parseAcknackTc (len p : Nat) (s : State) : Except Fault Verdict :=
  if len = lenAcknackTc then do
    let f ← memRead s p 2
    return .accepted (s.writeRecord fun r =>
      { r with
        isNack := isNackOf (BitVec.ofNat 16 f)
        timeCorrection := timeCorrectionOf (BitVec.ofNat 16 f) })
  else .ok .rejected

/-- The TSCH synchronization parser (43_mlme_short_subie.md R130). -/
def parseSync (len p : Nat) (s : State) : Except Fault Verdict :=
  if len = lenSync then do
    let low ← memRead s p 4
    let high ← memRead s (p + 4) 1
    let priority ← memRead s (p + 5) 1
    return .accepted (s.writeRecord fun r =>
      { r with
        asnLs4b := BitVec.ofNat 32 low
        asnMs1b := BitVec.ofNat 8 high
        joinPriority := BitVec.ofNat 8 priority })
  else .ok .rejected

/-- The TSCH timeslot parser (43_mlme_short_subie.md R131). -/
def parseTimeslot (len p : Nat) (s : State) : Except Fault Verdict :=
  if len = lenTimeslot then do
    let template ← memRead s p 1
    return .accepted (s.writeRecord fun r => { r with tschTimeslotId := BitVec.ofNat 8 template })
  else .ok .rejected

/-- The TSCH channel-hopping-sequence parser (44_mlme_long_subie.md R140). -/
def parseChseq (len p : Nat) (s : State) : Except Fault Verdict :=
  if len = lenChseq then do
    let sequence ← memRead s p 1
    return .accepted (s.writeRecord fun r => { r with channelHoppingSequenceId := BitVec.ofNat 8 sequence })
  else .ok .rejected

end Sys2Proof.Machine
end

