-- ==== Sys2Proof/Machine/HeaderIE.lean ====
section
/-! DEFINITION. The header IEs (41_header_ie.md): the step of 40_walker.md R90 after the unpack. -/

namespace Sys2Proof.Machine

/-- `HIE.ACKNACK_TC` (R110). -/
def execHieAcknackTc (len : BitVec 7) (s : State) : Result :=
  checkPayload len.toNat s fun p => onVerdict (parseAcknackTc len.toNat p s) s (State.advance (p + len.toNat))

/-- `HIE.LIST_TERM2` (R111): ends the parse successfully; the payload is counted and not read. -/
def execHieListTerm2 (len : BitVec 7) (s : State) : Result :=
  checkPayload len.toNat s fun p => .next (s.finish .listTerm (p + len.toNat))

/-- `HIE.LIST_TERM1` (R112): reserved, skipped by its length, does not end the parse. -/
def execHieListTerm1 (len : BitVec 7) (s : State) : Result :=
  checkPayload len.toNat s fun p => .next (s.advance (p + len.toNat))

/-- `HIE.OTHER` (R113): skipped by its length. -/
def execHieOther (_id : BitVec 8) (len : BitVec 7) (s : State) : Result :=
  checkPayload len.toNat s fun p => .next (s.advance (p + len.toNat))

end Sys2Proof.Machine
end

