-- ==== Sys2Proof/Machine/Flags.lean ====
section
/-! DEFINITION. The status bits (10_state.md R24, R32) and the packed value of `STATUS`. -/

namespace Sys2Proof.Machine

/-- The number of a `STATE` value (R24). -/
def ParserState.code : ParserState → BitVec 2
  | .idle => 0
  | .run => 1
  | .done => 2
  | .error => 3

/-- The number of an `ERR` value (R24, 60_exceptions.md R170). -/
def errCode : Option ParseFailure → BitVec 3
  | none => 0
  | some .truncatedDescriptor => 1
  | some .truncatedPayload => 2
  | some .invalidLength => 3
  | some .overrunNestedGroup => 4

/-- The number of an `END_CAUSE` value (R24). -/
def endCauseCode : Option EndCause → BitVec 2
  | none => 0
  | some .listTerm => 1
  | some .groupDone => 2
  | some .exhausted => 3

/-- `STATUS.NESTED`: 1 exactly when `MLME_REM != 0` (R24). -/
def State.nestedBit (s : State) : Bool := s.mlmeRem != 0

/-- `STATUS`: `NESTED` in bit 7, `END_CAUSE` in 6:5, `ERR` in 4:2, `STATE` in 1:0 (R24). -/
def State.statusWord (s : State) : BitVec 8 :=
  BitVec.ofBool s.nestedBit ++ endCauseCode s.endCause ++ errCode s.err ++ s.state.code

end Sys2Proof.Machine
end

