-- ==== Sys2Proof/Machine/HostCommands.lean ====
section
/-! DEFINITION. The host's commands (45_host_commands.md): `START`, `SET_DISCARD`, and the other register and buffer
accesses (10_state.md R28, R29). -/

namespace Sys2Proof.Machine

/-- `START` (R151). -/
def execStart (discard : Bool) (s : State) : Result := .next (s.startParse discard)

/-- `SET_DISCARD` (R152, `n = 0`): dropped while a parse runs. -/
def execSetDiscard (discard : Bool) (s : State) : Result :=
  .next (if s.state = .run then s else { s with discard := discard })

/-- The value of `CTRL` as read: `DISCARD` in bit 1; `START` reads 0 (10_state.md R23, 45_host_commands.md R155). -/
def State.ctrlWord (s : State) : BitVec 2 := packCtrl s.discard false

/-- `ReadReg(n)` (R155, the register numbers of 10_state.md R28): exactly the register's bits, as an unsigned number;
reserved numbers read 0 (R29). -/
def State.readReg (s : State) : Nat → Nat
  | 0 => s.ctrlWord.toNat
  | 1 => s.statusWord.toNat
  | 2 => s.len
  | 3 => s.consumed
  | 4 => s.cursor
  | 5 => s.mlmeRem.toNat
  | 8 => s.record.timeCorrection.toNat
  | 9 => s.record.isNack.toNat
  | 10 => s.record.asnLs4b.toNat
  | 11 => s.record.asnMs1b.toNat
  | 12 => s.record.joinPriority.toNat
  | 13 => s.record.tschTimeslotId.toNat
  | 14 => s.record.channelHoppingSequenceId.toNat
  | _ => 0

/-- The result register that number `n` names takes the value, reduced to the register's width (10_state.md R28,
00_scope.md R8); other numbers name none. -/
def Record.write (r : Record) (n v : Nat) : Record :=
  match n with
  | 8 => { r with timeCorrection := BitVec.ofNat 16 v }
  | 9 => { r with isNack := v.testBit 0 }
  | 10 => { r with asnLs4b := BitVec.ofNat 32 v }
  | 11 => { r with asnMs1b := BitVec.ofNat 8 v }
  | 12 => { r with joinPriority := BitVec.ofNat 8 v }
  | 13 => { r with tschTimeslotId := BitVec.ofNat 8 v }
  | 14 => { r with channelHoppingSequenceId := BitVec.ofNat 8 v }
  | _ => r

/-- `WriteReg(n, v)` for `n != 0` (R152): dropped while a parse runs; `LEN` takes the value reduced to `LEN_W` bits, a
result register to its own width, every other number is ignored (10_state.md R29). -/
def State.writeReg (p : Params) (n v : Nat) (s : State) : State :=
  if s.state = .run then s
  else if n = 2 then { s with len := v % 2 ^ p.lenW }
  else { s with record := s.record.write n v }

/-- `WriteBuf(a, b)` (R154): dropped while a parse runs. -/
def State.writeBuf (p : Params) (a : Nat) (b : Byte) (s : State) : State :=
  if s.state = .run then s else { s with buf := s.buf.store p.bufCap a b }

/-- The host receives the value of a read (R154, R155); a read changes nothing in the block. -/
def State.reply (r : HostReply) (s : State) : State := { s with replies := s.replies ++ [r] }

end Sys2Proof.Machine
end

