-- ==== Sys2Proof/Machine/LongSubIE.lean ====
section
/-! DEFINITION. The MLME long sub-IEs (44_mlme_long_subie.md): the step of 40_walker.md R90 after the unpack. -/

namespace Sys2Proof.Machine

/-- `SUBL.CHSEQ` (R140). -/
def execSublChseq (len : BitVec 11) (s : State) : Result :=
  checkPayload len.toNat s fun p => onVerdict (parseChseq len.toNat p s) s (State.nestedTail len.toNat p)

/-- `SUBL.OTHER` (R141): skipped by its length; id 1 is no container here. -/
def execSublOther (_id : BitVec 4) (len : BitVec 11) (s : State) : Result :=
  checkPayload len.toNat s fun p => .next (s.nestedTail len.toNat p)

end Sys2Proof.Machine
end

