-- ==== Sys2Proof/Machine/PayloadIE.lean ====
section
/-! DEFINITION. The payload IEs (42_payload_ie.md): the step of 40_walker.md R90 after the unpack. -/

namespace Sys2Proof.Machine

/-- `PIE.MLME` (R120): the declared length becomes the budget of the group, and only the descriptor is passed. -/
def execPieMlme (len : BitVec 11) (s : State) : Result :=
  checkPayload len.toNat s fun p => .next (State.advance p { s with mlmeRem := len })

/-- `PIE.OTHER` (R121): skipped by its length. -/
def execPieOther (_id : BitVec 4) (len : BitVec 11) (s : State) : Result :=
  checkPayload len.toNat s fun p => .next (s.advance (p + len.toNat))

end Sys2Proof.Machine
end

