-- ==== Sys2Proof/Machine/ShortSubIE.lean ====
section
/-! DEFINITION. The MLME short sub-IEs (43_mlme_short_subie.md): the step of 40_walker.md R90 after the unpack. -/

namespace Sys2Proof.Machine

/-- `SUBS.SYNC` (R130). -/
def execSubsSync (len : BitVec 8) (s : State) : Result :=
  checkPayload len.toNat s fun p => onVerdict (parseSync len.toNat p s) s (State.nestedTail len.toNat p)

/-- `SUBS.TIMESLOT` (R131). -/
def execSubsTimeslot (len : BitVec 8) (s : State) : Result :=
  checkPayload len.toNat s fun p => onVerdict (parseTimeslot len.toNat p s) s (State.nestedTail len.toNat p)

/-- `SUBS.SLOTFRAME_LINK` (R133): no parser exists for it; skipped by its length. -/
def execSubsSlotframeLink (len : BitVec 8) (s : State) : Result :=
  checkPayload len.toNat s fun p => .next (s.nestedTail len.toNat p)

/-- `SUBS.OTHER` (R132): skipped by its length. -/
def execSubsOther (_id : BitVec 7) (len : BitVec 8) (s : State) : Result :=
  checkPayload len.toNat s fun p => .next (s.nestedTail len.toNat p)

end Sys2Proof.Machine
end

