-- ==== Sys2Proof/Machine/Dispatch.lean ====
section
/-! DEFINITION. The meaning of every instruction: one arm per constructor of `Instr`. -/

namespace Sys2Proof.Machine

def exec (i : Instr) (s : State) : Host.Outcome State Fault Refusal :=
  match i with
  | .hieAcknackTc len => Sys2Proof.Machine.execHieAcknackTc len s
  | .hieListTerm2 len => Sys2Proof.Machine.execHieListTerm2 len s
  | .hieListTerm1 len => Sys2Proof.Machine.execHieListTerm1 len s
  | .hieOther id len => Sys2Proof.Machine.execHieOther id len s
  | .pieMlme len => Sys2Proof.Machine.execPieMlme len s
  | .pieOther id len => Sys2Proof.Machine.execPieOther id len s
  | .subsSync len => Sys2Proof.Machine.execSubsSync len s
  | .subsTimeslot len => Sys2Proof.Machine.execSubsTimeslot len s
  | .subsSlotframeLink len => Sys2Proof.Machine.execSubsSlotframeLink len s
  | .subsOther id len => Sys2Proof.Machine.execSubsOther id len s
  | .sublChseq len => Sys2Proof.Machine.execSublChseq len s
  | .sublOther id len => Sys2Proof.Machine.execSublOther id len s
  | .start discard => Sys2Proof.Machine.execStart discard s
  | .setDiscard discard => Sys2Proof.Machine.execSetDiscard discard s

end Sys2Proof.Machine
end

