-- ==== Sys2Proof/Machine/Walker.lean ====
section
/-! DEFINITION. What acts in one step: the parser's step (40_walker.md R90), a host command (45_host_commands.md R150) or
a reset (70_reset_and_hazards.md R190); and how a word is placed so that the next step runs it. -/

namespace Sys2Proof.Machine

/-- The parser's step (R90), enabled exactly when `STATE = RUN`; otherwise the parser does nothing (log entry 6).
Exhaustion (R91), then the descriptor fetch (R92), then the IE of the mode (R93). -/
def parserStep (p : Ids) (s : State) : Result :=
  if s.state ≠ .run then .next s
  else if s.rem0 = 0 then .next (s.finish .exhausted s.cursor)
  else if s.rem0 < 2 then .next (s.raise .truncatedDescriptor)
  else
    match memRead s s.cursor 2 with
    | .error f => .fault f
    | .ok d => exec (decodeDescriptor p s.mode (BitVec.ofNat 16 d)) s

/-- One host command (R150). A write of register 0 is decoded as `START` or `SET_DISCARD` (R151, R152). -/
def hostStep (p : Params) (c : HostCommand) (s : State) : Result :=
  match c with
  | .writeReg n v => if n = 0 then exec (decodeCtrl (BitVec.ofNat 2 v)) s else .next (s.writeReg p n v)
  | .readReg n => .next (s.reply (.reg n (s.readReg n)))
  | .writeBuf a b => .next (s.writeBuf p a b)
  | .readBuf a => .next (s.reply (.byte a (s.buf.load p.bufCap a)))

/-- One turn, at any choice of the parameters: the head of `turns` says who acts; with no turn listed the parser does
(log entry 5). -/
def turnStep (p : Params) (s : State) : Result :=
  match s.turns with
  | [] => parserStep p.ids s
  | .parser :: rest => parserStep p.ids { s with turns := rest }
  | .host c :: rest => hostStep p c { s with turns := rest }
  | .reset d :: rest => .next (State.takeReset p d { s with turns := rest })

/-- How many bytes of the buffer the IE of a table word takes: its descriptor and its declared length (30_encoding.md
R60). -/
def tableIELength (w : Nat) : Nat :=
  2 + (decodeDescriptor defaultIds (tableMode defaultIds (tableDesc w)) (tableDesc w)).declaredLen

/-- Where the IE of a table word is stored: at the cursor, or at offset 0 where the buffer ends before it would. -/
def tableOffset (w : Nat) (s : State) : Nat :=
  if s.cursor + tableIELength w ≤ defaultParams.bufCap then s.cursor else 0

/-- The budget that puts the walker in the mode a table word is read in. -/
def tableBudget (w : Nat) (s : State) : BitVec 11 :=
  match tableMode defaultIds (tableDesc w) with
  | .notNested => 0
  | .nested => if s.mlmeRem = 0 then BitVec.ofNat 11 (min (tableIELength w) 2047) else s.mlmeRem

/-- A running parse whose next IE is that of a table word, its payload the bytes of the word above the descriptor:
what the host's loading and `START` and, for a sub-IE, a container before it would leave (log entry 12). -/
def State.placeIE (w : Nat) (s : State) : State :=
  { s with
    buf := s.buf.storeNumber defaultParams.bufCap (tableOffset w s) w (tableIELength w)
    len := max s.len (tableOffset w s + tableIELength w)
    state := .run
    err := none
    endCause := none
    cursor := tableOffset w s
    mlmeRem := tableBudget w s
    consumed := 0
    turns := [] }

/-- A pending host write of `CTRL`. -/
def State.placeCtrl (w : Nat) (s : State) : State :=
  { s with turns := .host (.writeReg 0 w) :: s.turns }

/-- The state in which the very next step runs the instruction of a table word. -/
def State.placeWord (nbits w : Nat) (s : State) : State :=
  if nbits ≤ 8 then s.placeCtrl w else s.placeIE w

end Sys2Proof.Machine
end

