-- ==== Sys2Proof/Machine/Step.lean ====
section
/-! DEFINITION. The step of the machine, with the spec's default parameters, and the placing of an instruction word. -/

namespace Sys2Proof.Machine

/-- One step: one turn of the machine with the parameters at their defaults (00_scope.md R6, log entries 1 and 2). -/
def step (s : State) : Host.Outcome State Fault Refusal := turnStep defaultParams s

/-- The state in which the next step fetches and runs the instruction of a word of spec/opcode_table.json
(log entry 12). -/
def State.withFetchWord (s : State) (nbits w : Nat) : State := s.placeWord nbits w

end Sys2Proof.Machine
end

