-- ==== Sys2Proof/Safety.lean ====
section
/-! DEFINITION. What counts as a safe state of the IE parser, and the words that the statements use: the invariant
of 10_state.md R31, the fetch conditions of 20_memory.md R44, and what two states share. -/

namespace Sys2Proof

/-- The instructions that are IEs; the other two are writes of `CTRL`. -/
abbrev Instr.isIE : Instr → Bool
  | .start _ => false
  | .setDiscard _ => false
  | _ => true

/-- The size a recognised IE requires (30_encoding.md R68); an unrecognised one requires none. -/
abbrev Instr.requiredLen : Instr → Option Nat
  | .hieAcknackTc _ => some 2
  | .subsSync _ => some 6
  | .subsTimeslot _ => some 1
  | .sublChseq _ => some 1
  | _ => none

end Sys2Proof

namespace Sys2Proof.Machine

/-- The invariant every step keeps: 10_state.md R31, its parts (a) and (e) in the form that a host write of `LEN` after a
parse does not break (log entry 13), with the canonical form of the buffer and the widths of the three registers of
`LEN_W` bits (40_walker.md R97: none of them overflows), for the parameters `p`. -/
structure State.Inv (p : Params) (s : State) : Prop where
  /-- The buffer is in canonical form, every entry below `BUF_CAP`. -/
  bufWf : s.buf.wf p.bufCap = true
  /-- `LEN` fits `LEN_W` bits. -/
  lenFits : s.len < 2 ^ p.lenW
  /-- `CURSOR` fits `LEN_W` bits. -/
  cursorFits : s.cursor < 2 ^ p.lenW
  /-- `CONSUMED` fits `LEN_W` bits. -/
  consumedFits : s.consumed < 2 ^ p.lenW
  /-- (a), while a parse runs. -/
  cursorLe : s.state = .run → s.cursor ≤ s.len
  /-- (b), `ERR`. -/
  errIff : s.err ≠ none ↔ s.state = .error
  /-- (b), `END_CAUSE`. -/
  endCauseIff : s.endCause ≠ none ↔ s.state = .done
  /-- (c), after a successful parse. -/
  doneConsumed : s.state = .done → s.cursor = s.consumed
  /-- (c), otherwise. -/
  consumedZero : s.state ≠ .done → s.consumed = 0
  /-- (d): an open group never claims more bytes than the buffer has left. -/
  budgetLe : s.state = .run → s.mlmeRem.toNat ≤ s.len - s.cursor
  /-- (e): a successful parse ends with no group open. -/
  doneBudget : s.state = .done → s.mlmeRem = 0
  /-- Before the first parse the cursor is at 0 and no group is open (R30). -/
  idleCursor : s.state = .idle → s.cursor = 0 ∧ s.mlmeRem = 0

/-- 10_state.md R31, parts (a) to (e) word for word. -/
structure State.R31 (p : Params) (s : State) : Prop where
  /-- (a) -/
  cursorLe : s.cursor ≤ s.len ∧ s.len ≤ p.bufCap
  /-- (b) -/
  errIff : s.err ≠ none ↔ s.state = .error
  /-- (b) -/
  endCauseIff : s.endCause ≠ none ↔ s.state = .done
  /-- (c) -/
  doneConsumed : s.state = .done → s.cursor = s.consumed
  /-- (c) -/
  consumedZero : s.state ≠ .done → s.consumed = 0
  /-- (d) -/
  budgetLe : s.state = .run → s.mlmeRem.toNat ≤ s.len - s.cursor
  /-- (e) -/
  exhausted : s.state = .done → s.endCause = some .exhausted → s.cursor = s.len ∧ s.mlmeRem = 0
  /-- (e) -/
  groupDone : s.endCause = some .groupDone → s.mlmeRem = 0
  /-- (e) -/
  listTerm : s.endCause = some .listTerm → s.mlmeRem = 0

/-- A host write of `LEN` that is not dropped: the one input that R31 (a) and (e) do not survive (log entry 13). -/
abbrev Turn.writesLen : Turn → Bool
  | .host (.writeReg 2 _) => true
  | _ => false

/-- At least `n` bytes of the buffer are left at the cursor. -/
abbrev State.bytesLeft (s : State) (n : Nat) : Prop := s.cursor + n ≤ s.len

/-- The byte `k` places after the cursor. -/
abbrev State.byteAt (s : State) (k : Nat) : Byte := s.buf.read (s.cursor + k)

/-- The descriptor at the cursor, its low byte first (20_memory.md R41). -/
abbrev State.descriptor (s : State) : Desc := s.byteAt 1 ++ s.byteAt 0

/-- The offset after the IE at the cursor with `len` payload bytes (40_walker.md R100). -/
abbrev State.afterIE (s : State) (len : Nat) : Nat := s.cursor + 2 + len

/-- The result record with `f` applied unless `DISCARD` (45_host_commands.md R153). -/
abbrev State.recordUnlessDiscard (s : State) (f : Record → Record) : Record := if s.discard then s.record else f s.record

/-- The result record once the parser of the IE at the cursor has accepted it (30_encoding.md R67): an IE without a parser
writes none of it. -/
abbrev State.acceptedRecord (s : State) : Instr → Record
  | .hieAcknackTc _ => s.recordUnlessDiscard fun r =>
    { r with
      isNack := (s.byteAt 3).getLsbD 7
      timeCorrection := ((s.byteAt 3 ++ s.byteAt 2).extractLsb' 0 12).signExtend 16 }
  | .subsSync _ => s.recordUnlessDiscard fun r =>
    { r with
      asnLs4b := s.byteAt 5 ++ s.byteAt 4 ++ s.byteAt 3 ++ s.byteAt 2
      asnMs1b := s.byteAt 6
      joinPriority := s.byteAt 7 }
  | .subsTimeslot _ => s.recordUnlessDiscard fun r => { r with tschTimeslotId := s.byteAt 2 }
  | .sublChseq _ => s.recordUnlessDiscard fun r => { r with channelHoppingSequenceId := s.byteAt 2 }
  | _ => s.record

/-- `exec` raises the failure: `ERR` and `STATE` change and nothing else does (60_exceptions.md R175). -/
abbrev Raises (i : Instr) (s : State) (e : ParseFailure) : Prop :=
  exec i s = .next { s with err := some e, state := .error }

/-- `exec` skips the IE: only the cursor changes (41_header_ie.md R113). -/
abbrev Skips (i : Instr) (s : State) (len : Nat) : Prop :=
  exec i s = .next { s with cursor := s.afterIE len }

/-- What a sub-IE does after its parser (40_walker.md R94), the result record being `r`: more than the budget raises
`OverrunNestedGroup`, the budget exactly ends the parse, less leaves the rest of it. -/
abbrev NestedTail (i : Instr) (s : State) (len : Nat) (r : Record) : Prop :=
  (s.mlmeRem.toNat < 2 + len →
    exec i s = .next { s with record := r, err := some .overrunNestedGroup, state := .error }) ∧
  (s.mlmeRem.toNat = 2 + len →
    exec i s = .next
      { s with
        record := r
        mlmeRem := 0
        cursor := s.afterIE len
        consumed := s.afterIE len
        endCause := some .groupDone
        state := .done }) ∧
  (2 + len < s.mlmeRem.toNat →
    exec i s = .next
      { s with
        record := r
        mlmeRem := BitVec.ofNat 11 (s.mlmeRem.toNat - (2 + len))
        cursor := s.afterIE len })

/-- Two states that differ at most in `DISCARD` and the result record (40_walker.md R102). -/
abbrev State.sameWalk (s t : State) : Prop := { t with discard := s.discard, record := s.record } = s

/-- Two states that differ at most in the bytes at and beyond `LEN` (10_state.md R11). -/
abbrev State.sameFrame (s t : State) : Prop :=
  { t with buf := s.buf } = s ∧ ∀ a, a < s.len → t.buf.read a = s.buf.read a

/-- The failure that the step at the cursor reports, in the fixed order of 60_exceptions.md R176, `i` being the IE there. -/
abbrev State.reportedFailure (s : State) (i : Instr) : Option ParseFailure :=
  if s.cursor = s.len then none
  else if s.cursor + 1 = s.len then some .truncatedDescriptor
  else if ¬ s.bytesLeft (2 + i.declaredLen) then some .truncatedPayload
  else if i.requiredLen ≠ none ∧ i.requiredLen ≠ some i.declaredLen then some .invalidLength
  else if s.mlmeRem ≠ 0 ∧ s.mlmeRem.toNat < 2 + i.declaredLen then some .overrunNestedGroup
  else none

/-- The machine with the parameters `p`; `Sys2Proof.core` is the one of `defaultParams`. -/
abbrev coreOf (p : Params) : Host.Core :=
  { State := State, Fault := Fault, Refusal := Refusal, step := turnStep p, reset := State.reset }

end Sys2Proof.Machine
end

