-- ==== Sys2Proof/Certificates/Slice0/Obligations.lean ====
section
/-! DEFINITION. The statements for the provers. Each docstring names the rule of spec/ it formalises; the words used
(`bytesLeft`, `byteAt`, `afterIE`, `Raises`, `Skips`, `NestedTail`, …) are defined in Safety.lean. Unless a statement
says otherwise it holds for every choice of the parameters, the five ids and `LEN_W` (00_scope.md R6). -/

open Sys2Proof Sys2Proof.Machine

/-! ## Encoding -/

/-- 30_encoding.md R60, R66, R68: every well-formed instruction is what its encoding decodes to. -/
def Obligations.DecodeOfEncodeIsTheInstruction : Prop :=
  ∀ p : Ids, p.valid → ∀ i : Instr, i.wf p = true → decode p (encode p i) = i

/-- 30_encoding.md R60, R69: no bit of a descriptor or of a CTRL value is dropped, and none is illegal. -/
def Obligations.EncodeOfDecodeIsTheWord : Prop :=
  ∀ (p : Ids) (c : Code), encode p (decode p c) = c ∧ (decode p c).wf p = true

/-- 30_encoding.md R62 to R65: the unpackers as arithmetic on the descriptor's value, with the rules' examples. -/
def Obligations.UnpackersAreTheArithmetic : Prop :=
  (∀ d : Desc,
    typeBit d = decide (32768 ≤ d.toNat) ∧
    (unpackHdr d).1.toNat = d.toNat % 128 ∧ (unpackHdr d).2.toNat = d.toNat / 128 % 256 ∧
    (unpackPld d).1.toNat = d.toNat % 2048 ∧ (unpackPld d).2.toNat = d.toNat / 2048 % 16 ∧
    (unpackSubs d).1.toNat = d.toNat % 256 ∧ (unpackSubs d).2.toNat = d.toNat / 256 % 128 ∧
    unpackSubl d = unpackPld d) ∧
  (descOfBytes 0x02 0x0F = 0x0F02 ∧ typeBit 0x0F02 = false ∧ unpackHdr 0x0F02 = (2, 0x1e)) ∧
  (descOfBytes 0x08 0x88 = 0x8808 ∧ typeBit 0x8808 = true ∧ unpackPld 0x8808 = (8, 1)) ∧
  (descOfBytes 0x06 0x1A = 0x1A06 ∧ typeBit 0x1A06 = false ∧ unpackSubs 0x1A06 = (6, 0x1a)) ∧
  (descOfBytes 0x01 0xC8 = 0xC801 ∧ typeBit 0xC801 = true ∧ unpackSubl 0xC801 = (1, 0x9))

/-- 30_encoding.md R66: the packers as arithmetic, masking included, the low byte first, and that unpacking a packed
descriptor gives back the fields and the type bit of its layout. -/
def Obligations.PackersAreTheArithmetic : Prop :=
  (∀ id len : Nat,
    (packHdr (BitVec.ofNat 8 id) (BitVec.ofNat 7 len)).toNat = id % 256 * 128 + len % 128 ∧
    (packPld (BitVec.ofNat 4 id) (BitVec.ofNat 11 len)).toNat = 32768 + id % 16 * 2048 + len % 2048 ∧
    (packSubs (BitVec.ofNat 7 id) (BitVec.ofNat 8 len)).toNat = id % 128 * 256 + len % 256 ∧
    (packSubl (BitVec.ofNat 4 id) (BitVec.ofNat 11 len)).toNat = 32768 + id % 16 * 2048 + len % 2048) ∧
  (∀ d : Desc, (descBytes d).map BitVec.toNat = [d.toNat % 256, d.toNat / 256]) ∧
  (∀ id len, unpackHdr (packHdr id len) = (len, id) ∧ typeBit (packHdr id len) = false) ∧
  (∀ id len, unpackPld (packPld id len) = (len, id) ∧ typeBit (packPld id len) = true) ∧
  (∀ id len, unpackSubs (packSubs id len) = (len, id) ∧ typeBit (packSubs id len) = false) ∧
  (∀ id len, unpackSubl (packSubl id len) = (len, id) ∧ typeBit (packSubl id len) = true)

/-- 30_encoding.md R60, R68, 40_walker.md R93: which descriptors each row of the IE map stands for, in each mode, as
arithmetic on the descriptor's value. -/
def Obligations.EachRowStandsForItsDescriptors : Prop :=
  ∀ p : Ids, p.valid → ∀ d : Desc,
    (∀ len, decodeDescriptor p .notNested d = .hieAcknackTc len ↔ d.toNat = p.acknackTc.toNat * 128 + len.toNat) ∧
    (∀ len, decodeDescriptor p .notNested d = .hieListTerm2 len ↔ d.toNat = 0x7f * 128 + len.toNat) ∧
    (∀ len, decodeDescriptor p .notNested d = .hieListTerm1 len ↔ d.toNat = 0x7e * 128 + len.toNat) ∧
    (∀ id len, decodeDescriptor p .notNested d = .hieOther id len ↔
      d.toNat = id.toNat * 128 + len.toNat ∧ id ≠ p.acknackTc ∧ id ≠ 0x7f ∧ id ≠ 0x7e) ∧
    (∀ len, decodeDescriptor p .notNested d = .pieMlme len ↔ d.toNat = 0x8800 + len.toNat) ∧
    (∀ id len, decodeDescriptor p .notNested d = .pieOther id len ↔
      d.toNat = 0x8000 + id.toNat * 2048 + len.toNat ∧ id ≠ 1) ∧
    (∀ len, decodeDescriptor p .nested d = .subsSync len ↔ d.toNat = p.sync.toNat * 256 + len.toNat) ∧
    (∀ len, decodeDescriptor p .nested d = .subsTimeslot len ↔ d.toNat = p.timeslot.toNat * 256 + len.toNat) ∧
    (∀ len, decodeDescriptor p .nested d = .subsSlotframeLink len ↔
      d.toNat = p.slotframeLink.toNat * 256 + len.toNat) ∧
    (∀ id len, decodeDescriptor p .nested d = .subsOther id len ↔
      d.toNat = id.toNat * 256 + len.toNat ∧ id ≠ p.sync ∧ id ≠ p.timeslot ∧ id ≠ p.slotframeLink) ∧
    (∀ len, decodeDescriptor p .nested d = .sublChseq len ↔
      d.toNat = 0x8000 + p.chseq.toNat * 2048 + len.toNat) ∧
    (∀ id len, decodeDescriptor p .nested d = .sublOther id len ↔
      d.toNat = 0x8000 + id.toNat * 2048 + len.toNat ∧ id ≠ p.chseq)

/-- 30_encoding.md R68, 95_test_vectors.md part 2: written-out words decode to the instructions they stand for, at the
default ids. -/
def Obligations.WrittenWordsDecode : Prop :=
  decodeBytes defaultIds .notNested [0x02, 0x0F] = .ok (.hieAcknackTc 2, []) ∧
  decodeBytes defaultIds .notNested [0x80, 0x3F] = .ok (.hieListTerm2 0, []) ∧
  decodeBytes defaultIds .notNested [0x03, 0x11, 0xAA] = .ok (.hieOther 0x22 3, [0xAA]) ∧
  decodeBytes defaultIds .notNested [0x08, 0x88] = .ok (.pieMlme 8, []) ∧
  decodeBytes defaultIds .notNested [0x04, 0x90] = .ok (.pieOther 2 4, []) ∧
  decodeBytes defaultIds .nested [0x06, 0x1A] = .ok (.subsSync 6, []) ∧
  decodeBytes defaultIds .nested [0x01, 0x1C] = .ok (.subsTimeslot 1, []) ∧
  decodeBytes defaultIds .notNested [0x01, 0x1C] = .ok (.hieOther 0x38 1, []) ∧
  decodeBytes defaultIds .nested [0x01, 0xC8] = .ok (.sublChseq 1, []) ∧
  decodeBytes defaultIds .nested [0x03, 0x88] = .ok (.sublOther 1 3, []) ∧
  decodeBytes defaultIds .nested [0x80] = .error .fewerThanTwoBytes ∧
  decodeCtrl 0b11 = .start true ∧ decodeCtrl 0b10 = .setDiscard true

/-! ## The buffer -/

/-- 20_memory.md R41, R42: `MemRead(a, n)` is the little-endian value of the `n` bytes, for the widths the parser reads. -/
def Obligations.MemReadIsLittleEndian : Prop :=
  ∀ (s : State) (a : Nat),
    (a + 1 ≤ s.len → memRead s a 1 = .ok (s.buf.read a).toNat) ∧
    (a + 2 ≤ s.len → memRead s a 2 = .ok ((s.buf.read a).toNat + 256 * (s.buf.read (a + 1)).toNat)) ∧
    (a + 4 ≤ s.len → memRead s a 4 = .ok
      ((s.buf.read a).toNat + 256 * (s.buf.read (a + 1)).toNat + 65536 * (s.buf.read (a + 2)).toNat +
        16777216 * (s.buf.read (a + 3)).toNat))

/-- The canonical form of the buffer: two buffers in it that read alike are the same data. -/
def Obligations.BuffersThatReadAlikeAreEqual : Prop :=
  ∀ (cap : Nat) (m n : Memory), m.wf cap = true → n.wf cap = true → (∀ a, a < cap → m.read a = n.read a) → m = n

/-- 45_host_commands.md R154: `WriteBuf` and `ReadBuf`, in and out of a parse, inside and beyond the buffer. -/
def Obligations.HostBufferAccess : Prop :=
  (∀ (p : Params) (s : State) (a : Nat) (b : Byte) (rest : List Turn), s.buf.wf p.bufCap = true →
    s.turns = .host (.writeBuf a b) :: rest →
    (s.state = .run → turnStep p s = .next { s with turns := rest }) ∧
    (s.state ≠ .run → ∃ m, turnStep p s = .next { s with turns := rest, buf := m } ∧
      (p.bufCap ≤ a → m = s.buf) ∧
      (a < p.bufCap → ∀ x, m.read x = if x = a then b else s.buf.read x))) ∧
  (∀ (p : Params) (s : State) (a : Nat) (rest : List Turn), s.turns = .host (.readBuf a) :: rest →
    (a < p.bufCap → turnStep p s =
      .next { s with turns := rest, replies := s.replies ++ [.byte a (s.buf.read a)] }) ∧
    (p.bufCap ≤ a → turnStep p s = .next { s with turns := rest, replies := s.replies ++ [.byte a 0] }))

/-! ## What each instruction does: the whole of its rule, the completion included -/

/-- 41_header_ie.md R110, `HIE.ACKNACK_TC`. -/
def Obligations.AckNackTimeCorrection : Prop :=
  (∀ (p : Ids) (len : BitVec 7), encode p (.hieAcknackTc len) =
    .descriptor .notNested (BitVec.ofNat 16 (p.acknackTc.toNat * 128 + len.toNat))) ∧
  encode defaultIds (.hieAcknackTc 2) = .descriptor .notNested 0x0F02 ∧
  ∀ (s : State) (len : BitVec 7), s.bytesLeft 2 →
    (¬ s.bytesLeft (2 + len.toNat) → Raises (.hieAcknackTc len) s .truncatedPayload) ∧
    (s.bytesLeft (2 + len.toNat) → len ≠ 2 → Raises (.hieAcknackTc len) s .invalidLength) ∧
    (s.bytesLeft 4 → len = 2 →
      exec (.hieAcknackTc len) s = .next
        { s with
          cursor := s.afterIE 2
          record := s.recordUnlessDiscard fun r =>
            { r with
              isNack := (s.byteAt 3).getLsbD 7
              timeCorrection := ((s.byteAt 3 ++ s.byteAt 2).extractLsb' 0 12).signExtend 16 } })

/-- 41_header_ie.md R111, `HIE.LIST_TERM2`. -/
def Obligations.ListTerminationEndsTheParse : Prop :=
  (∀ (p : Ids) (len : BitVec 7), encode p (.hieListTerm2 len) =
    .descriptor .notNested (BitVec.ofNat 16 (0x7f * 128 + len.toNat))) ∧
  encode defaultIds (.hieListTerm2 0) = .descriptor .notNested 0x3F80 ∧
  decodeDescriptor defaultIds .nested 0x3F80 = .subsOther 0x3f 0x80 ∧
  ∀ (s : State) (len : BitVec 7), s.bytesLeft 2 →
    (¬ s.bytesLeft (2 + len.toNat) → Raises (.hieListTerm2 len) s .truncatedPayload) ∧
    (s.bytesLeft (2 + len.toNat) →
      exec (.hieListTerm2 len) s = .next
        { s with
          consumed := s.afterIE len.toNat
          cursor := s.afterIE len.toNat
          endCause := some .listTerm
          state := .done })

/-- 41_header_ie.md R112, R113: `HIE.LIST_TERM1` and `HIE.OTHER` are skipped by their length. -/
def Obligations.UnrecognisedHeaderIEsAreSkipped : Prop :=
  (∀ (p : Ids) (len : BitVec 7), encode p (.hieListTerm1 len) =
    .descriptor .notNested (BitVec.ofNat 16 (0x7e * 128 + len.toNat))) ∧
  (∀ (p : Ids) (id : BitVec 8) (len : BitVec 7), encode p (.hieOther id len) =
    .descriptor .notNested (BitVec.ofNat 16 (id.toNat * 128 + len.toNat))) ∧
  encode defaultIds (.hieListTerm1 0) = .descriptor .notNested 0x3F00 ∧
  ∀ (s : State) (id : BitVec 8) (len : BitVec 7), s.bytesLeft 2 →
    (¬ s.bytesLeft (2 + len.toNat) →
      Raises (.hieListTerm1 len) s .truncatedPayload ∧ Raises (.hieOther id len) s .truncatedPayload) ∧
    (s.bytesLeft (2 + len.toNat) →
      Skips (.hieListTerm1 len) s len.toNat ∧ Skips (.hieOther id len) s len.toNat)

/-- 42_payload_ie.md R120, `PIE.MLME`: the declared length becomes the budget, only the descriptor is passed. An empty
container leaves the walker not-nested; after a container of length 1 the next step of a running parse fails. -/
def Obligations.MlmeContainerOpensItsGroup : Prop :=
  (∀ (p : Ids) (len : BitVec 11), encode p (.pieMlme len) =
    .descriptor .notNested (BitVec.ofNat 16 (0x8800 + len.toNat))) ∧
  ∀ (s : State) (len : BitVec 11), s.bytesLeft 2 →
    (¬ s.bytesLeft (2 + len.toNat) → Raises (.pieMlme len) s .truncatedPayload) ∧
    (s.bytesLeft (2 + len.toNat) →
      exec (.pieMlme len) s = .next { s with mlmeRem := len, cursor := s.afterIE 0 }) ∧
    (∀ t, s.bytesLeft (2 + len.toNat) → exec (.pieMlme len) s = .next t →
      (t.mode = .notNested ↔ len = 0) ∧
      (len = 1 → s.state = .run → ∀ p, ∃ u, parserStep p t = .next u ∧ u.state = .error))

/-- 42_payload_ie.md R121, `PIE.OTHER`. -/
def Obligations.UnrecognisedPayloadIEsAreSkipped : Prop :=
  (∀ (p : Ids) (id : BitVec 4) (len : BitVec 11), encode p (.pieOther id len) =
    .descriptor .notNested (BitVec.ofNat 16 (0x8000 + id.toNat * 2048 + len.toNat))) ∧
  ∀ (s : State) (id : BitVec 4) (len : BitVec 11), s.bytesLeft 2 →
    (¬ s.bytesLeft (2 + len.toNat) → Raises (.pieOther id len) s .truncatedPayload) ∧
    (s.bytesLeft (2 + len.toNat) → Skips (.pieOther id len) s len.toNat)

/-- 43_mlme_short_subie.md R130, `SUBS.SYNC`: the three registers are written before the budget is tested. -/
def Obligations.SynchronizationSubIE : Prop :=
  (∀ (p : Ids) (len : BitVec 8), encode p (.subsSync len) =
    .descriptor .nested (BitVec.ofNat 16 (p.sync.toNat * 256 + len.toNat))) ∧
  encode defaultIds (.subsSync 6) = .descriptor .nested 0x1A06 ∧
  ∀ (s : State) (len : BitVec 8), s.bytesLeft 2 →
    (¬ s.bytesLeft (2 + len.toNat) → Raises (.subsSync len) s .truncatedPayload) ∧
    (s.bytesLeft (2 + len.toNat) → len ≠ 6 → Raises (.subsSync len) s .invalidLength) ∧
    (s.bytesLeft 8 → len = 6 →
      NestedTail (.subsSync len) s 6 (s.recordUnlessDiscard fun r =>
        { r with
          asnLs4b := s.byteAt 5 ++ s.byteAt 4 ++ s.byteAt 3 ++ s.byteAt 2
          asnMs1b := s.byteAt 6
          joinPriority := s.byteAt 7 }))

/-- 43_mlme_short_subie.md R131, `SUBS.TIMESLOT`. -/
def Obligations.TimeslotSubIE : Prop :=
  (∀ (p : Ids) (len : BitVec 8), encode p (.subsTimeslot len) =
    .descriptor .nested (BitVec.ofNat 16 (p.timeslot.toNat * 256 + len.toNat))) ∧
  encode defaultIds (.subsTimeslot 1) = .descriptor .nested 0x1C01 ∧
  ∀ (s : State) (len : BitVec 8), s.bytesLeft 2 →
    (¬ s.bytesLeft (2 + len.toNat) → Raises (.subsTimeslot len) s .truncatedPayload) ∧
    (s.bytesLeft (2 + len.toNat) → len ≠ 1 → Raises (.subsTimeslot len) s .invalidLength) ∧
    (s.bytesLeft 3 → len = 1 →
      NestedTail (.subsTimeslot len) s 1 (s.recordUnlessDiscard fun r => { r with tschTimeslotId := s.byteAt 2 }))

/-- 43_mlme_short_subie.md R132, R133: `SUBS.OTHER` and `SUBS.SLOTFRAME_LINK` are skipped by their length. -/
def Obligations.SkippedShortSubIEs : Prop :=
  (∀ (p : Ids) (id : BitVec 7) (len : BitVec 8), encode p (.subsOther id len) =
    .descriptor .nested (BitVec.ofNat 16 (id.toNat * 256 + len.toNat))) ∧
  (∀ (p : Ids) (len : BitVec 8), encode p (.subsSlotframeLink len) =
    .descriptor .nested (BitVec.ofNat 16 (p.slotframeLink.toNat * 256 + len.toNat))) ∧
  encode defaultIds (.subsSlotframeLink 3) = .descriptor .nested 0x1B03 ∧
  ∀ (s : State) (id : BitVec 7) (len : BitVec 8), s.bytesLeft 2 →
    (¬ s.bytesLeft (2 + len.toNat) →
      Raises (.subsOther id len) s .truncatedPayload ∧ Raises (.subsSlotframeLink len) s .truncatedPayload) ∧
    (s.bytesLeft (2 + len.toNat) →
      NestedTail (.subsOther id len) s len.toNat s.record ∧
      NestedTail (.subsSlotframeLink len) s len.toNat s.record)

/-- 44_mlme_long_subie.md R140, `SUBL.CHSEQ`. -/
def Obligations.ChannelHoppingSubIE : Prop :=
  (∀ (p : Ids) (len : BitVec 11), encode p (.sublChseq len) =
    .descriptor .nested (BitVec.ofNat 16 (0x8000 + p.chseq.toNat * 2048 + len.toNat))) ∧
  encode defaultIds (.sublChseq 1) = .descriptor .nested 0xC801 ∧
  ∀ (s : State) (len : BitVec 11), s.bytesLeft 2 →
    (¬ s.bytesLeft (2 + len.toNat) → Raises (.sublChseq len) s .truncatedPayload) ∧
    (s.bytesLeft (2 + len.toNat) → len ≠ 1 → Raises (.sublChseq len) s .invalidLength) ∧
    (s.bytesLeft 3 → len = 1 →
      NestedTail (.sublChseq len) s 1
        (s.recordUnlessDiscard fun r => { r with channelHoppingSequenceId := s.byteAt 2 }))

/-- 44_mlme_long_subie.md R141, `SUBL.OTHER`, id 1 included. -/
def Obligations.SkippedLongSubIEs : Prop :=
  (∀ (p : Ids) (id : BitVec 4) (len : BitVec 11), encode p (.sublOther id len) =
    .descriptor .nested (BitVec.ofNat 16 (0x8000 + id.toNat * 2048 + len.toNat))) ∧
  decodeDescriptor defaultIds .nested 0x8803 = .sublOther 1 3 ∧
  ∀ (s : State) (id : BitVec 4) (len : BitVec 11), s.bytesLeft 2 →
    (¬ s.bytesLeft (2 + len.toNat) → Raises (.sublOther id len) s .truncatedPayload) ∧
    (s.bytesLeft (2 + len.toNat) → NestedTail (.sublOther id len) s len.toNat s.record)

/-- 45_host_commands.md R151, `START`: from any state but `RUN` it begins a parse, in `RUN` the whole write is dropped. -/
def Obligations.StartBeginsAParse : Prop :=
  (∀ v : BitVec 2, v.getLsbD 0 = true → decodeCtrl v = .start (v.getLsbD 1)) ∧
  ∀ (s : State) (discard : Bool),
    (s.state = .run → exec (.start discard) s = .next s) ∧
    (s.state ≠ .run →
      exec (.start discard) s = .next
        { s with
          discard := discard
          cursor := 0
          mlmeRem := 0
          consumed := 0
          err := none
          endCause := none
          state := .run }) ∧
    (s.state ≠ .run → s.len = 0 → ∃ t, exec (.start discard) s = .next t ∧
      ∀ p, parserStep p t = .next { t with consumed := 0, endCause := some .exhausted, state := .done })

/-- 45_host_commands.md R152 with `n = 0`, `SET_DISCARD`. -/
def Obligations.SetDiscardWritesDiscard : Prop :=
  ∀ (s : State) (discard : Bool),
    (s.state = .run → exec (.setDiscard discard) s = .next s) ∧
    (s.state ≠ .run → exec (.setDiscard discard) s = .next { s with discard := discard })

/-! ## Frames -/

/-- What the six top-level IEs leave unchanged (40_walker.md R100, 20_memory.md R45, 60_exceptions.md R175). -/
def Obligations.TopLevelIEFrame : Prop :=
  ∀ (s t : State) (i : Instr) (idH : BitVec 8) (lenH : BitVec 7) (idP : BitVec 4) (lenP : BitVec 11),
    i ∈ [.hieAcknackTc lenH, .hieListTerm2 lenH, .hieListTerm1 lenH, .hieOther idH lenH, .pieMlme lenP,
      Instr.pieOther idP lenP] →
    exec i s = .next t →
    t.buf = s.buf ∧ (∀ a, t.buf.read a = s.buf.read a) ∧ t.len = s.len ∧ t.discard = s.discard ∧
    t.turns = s.turns ∧ t.replies = s.replies ∧
    (i ≠ .pieMlme lenP → t.mlmeRem = s.mlmeRem) ∧
    (i ≠ .hieListTerm2 lenH → t.consumed = s.consumed ∧ t.endCause = s.endCause) ∧
    (t.err = s.err ∨ t.state = .error ∧ t.cursor = s.cursor ∧ t.mlmeRem = s.mlmeRem ∧ t.consumed = s.consumed ∧
      t.endCause = s.endCause ∧ t.record = s.record) ∧
    (i ≠ .hieListTerm2 lenH → t.state = s.state ∨ t.state = .error) ∧
    (i ≠ .hieAcknackTc lenH → t.record = s.record) ∧
    { t.record with isNack := s.record.isNack, timeCorrection := s.record.timeCorrection } = s.record

/-- What the six sub-IEs leave unchanged (40_walker.md R94, R100, 20_memory.md R45, 60_exceptions.md R175). -/
def Obligations.SubIEFrame : Prop :=
  ∀ (s t : State) (i : Instr) (idS : BitVec 7) (lenS : BitVec 8) (idL : BitVec 4) (lenL : BitVec 11),
    i ∈ [.subsSync lenS, .subsTimeslot lenS, .subsSlotframeLink lenS, .subsOther idS lenS, .sublChseq lenL,
      Instr.sublOther idL lenL] →
    exec i s = .next t →
    t.buf = s.buf ∧ (∀ a, t.buf.read a = s.buf.read a) ∧ t.len = s.len ∧ t.discard = s.discard ∧
    t.turns = s.turns ∧ t.replies = s.replies ∧
    (t.err = s.err ∨ t.state = .error ∧ t.cursor = s.cursor ∧ t.mlmeRem = s.mlmeRem ∧ t.consumed = s.consumed ∧
      t.endCause = s.endCause ∧ (t.err ≠ some .overrunNestedGroup → t.record = s.record)) ∧
    (t.consumed = s.consumed ∧ t.endCause = s.endCause ∨
      t.state = .done ∧ t.mlmeRem = 0 ∧ t.endCause = some .groupDone) ∧
    (t.state = s.state ∨ t.state = .error ∨ t.state = .done ∧ t.mlmeRem = 0) ∧
    (i = .subsSync lenS →
      { t.record with
        asnLs4b := s.record.asnLs4b, asnMs1b := s.record.asnMs1b, joinPriority := s.record.joinPriority } = s.record) ∧
    (i = .subsTimeslot lenS → { t.record with tschTimeslotId := s.record.tschTimeslotId } = s.record) ∧
    (i = .sublChseq lenL →
      { t.record with channelHoppingSequenceId := s.record.channelHoppingSequenceId } = s.record) ∧
    (i ∈ [.subsSlotframeLink lenS, .subsOther idS lenS, Instr.sublOther idL lenL] → t.record = s.record)

/-- What a write of `CTRL` leaves unchanged (45_host_commands.md R151, R152): the buffer, `LEN` and the result registers,
and for `SET_DISCARD` everything but `DISCARD`. -/
def Obligations.CtrlWriteFrame : Prop :=
  ∀ (s t : State) (discard : Bool),
    (exec (.start discard) s = .next t →
      t.buf = s.buf ∧ (∀ a, t.buf.read a = s.buf.read a) ∧ t.len = s.len ∧ t.record = s.record ∧
      t.turns = s.turns ∧ t.replies = s.replies) ∧
    (exec (.setDiscard discard) s = .next t → { t with discard := s.discard } = s ∧
      ∀ a, t.buf.read a = s.buf.read a)

/-- 10_state.md R14 to R20, R22: each result register is written by one instruction only, for every instruction. -/
def Obligations.EachResultRegisterHasOneWriter : Prop :=
  ∀ (i : Instr) (s t : State), exec i s = .next t →
    ((∀ len, i ≠ .hieAcknackTc len) →
      t.record.isNack = s.record.isNack ∧ t.record.timeCorrection = s.record.timeCorrection) ∧
    ((∀ len, i ≠ .subsSync len) →
      t.record.asnLs4b = s.record.asnLs4b ∧ t.record.asnMs1b = s.record.asnMs1b ∧
      t.record.joinPriority = s.record.joinPriority) ∧
    ((∀ len, i ≠ .subsTimeslot len) → t.record.tschTimeslotId = s.record.tschTimeslotId) ∧
    ((∀ len, i ≠ .sublChseq len) →
      t.record.channelHoppingSequenceId = s.record.channelHoppingSequenceId)

/-- 20_memory.md R45, 10_state.md R11, R23, R25: no instruction writes the buffer or `LEN`, and only the two writes of
`CTRL` write `DISCARD`. -/
def Obligations.NoInstructionWritesBufferOrLen : Prop :=
  ∀ (i : Instr) (s t : State), exec i s = .next t →
    t.buf = s.buf ∧ t.len = s.len ∧ (i.isIE = true → t.discard = s.discard)

/-- 45_host_commands.md R153: while `DISCARD = 1` no IE writes a result register. -/
def Obligations.DiscardKeepsTheRecord : Prop :=
  ∀ (i : Instr) (s t : State), i.isIE = true → s.discard = true → exec i s = .next t → t.record = s.record

/-! ## The step -/

/-- A step runs the decoded instruction: on the parser's turn that of the bytes at `CURSOR` in the walker's mode
(40_walker.md R90, R92, R93), on a host write of register 0 that of the value (45_host_commands.md R151, R152). `turnStep p`
is the step at the parameters `p`, and `step` the one at the defaults (log entries 1 and 2). The step adds nothing but
taking the turn off the list (log entry 5). -/
def Obligations.StepRunsTheDecodedInstruction : Prop :=
  (∀ (p : Params) (s : State), s.turns = [] → s.state = .run → s.bytesLeft 2 →
    decodeBytes p.ids s.mode [s.byteAt 0, s.byteAt 1] = .ok (decodeDescriptor p.ids s.mode s.descriptor, []) ∧
    turnStep p s = exec (decodeDescriptor p.ids s.mode s.descriptor) s) ∧
  (∀ (p : Params) (s : State) (rest : List Turn), s.turns = .parser :: rest → s.state = .run → s.bytesLeft 2 →
    turnStep p s = exec (decodeDescriptor p.ids s.mode s.descriptor) { s with turns := rest }) ∧
  (∀ (p : Params) (s : State) (v : Nat) (rest : List Turn), s.turns = .host (.writeReg 0 v) :: rest →
    turnStep p s = exec (decode p.ids (.ctrlWrite (BitVec.ofNat 2 v))) { s with turns := rest }) ∧
  (∀ s : State, step s = turnStep defaultParams s)

/-- 10_state.md R10, 40_walker.md R90, R101: while `STATE` is not `RUN` the parser's turn changes nothing. -/
def Obligations.ParserIsDisabledOutsideRun : Prop :=
  ∀ (p : Params) (s : State), s.state ≠ .run →
    (s.turns = [] → turnStep p s = .next s) ∧
    (∀ rest, s.turns = .parser :: rest → turnStep p s = .next { s with turns := rest })

/-- 40_walker.md R91: with no byte left the parse ends successfully, an empty buffer after `START` included, and only in
not-nested mode. -/
def Obligations.ExhaustionEndsTheParse : Prop :=
  (∀ (p : Params) (s : State), s.state = .run → s.cursor = s.len →
    parserStep p.ids s = .next { s with consumed := s.cursor, endCause := some .exhausted, state := .done }) ∧
  (∀ (p : Params) (s : State) (discard : Bool), s.state ≠ .run → s.len = 0 →
    ∃ t, parserStep p.ids (s.startParse discard) = .next t ∧
      t.state = .done ∧ t.consumed = 0 ∧ t.endCause = some .exhausted) ∧
  (∀ (p : Params) (s : State), s.Inv p → s.state = .run → s.cursor = s.len → s.mode = .notNested)

/-- 60_exceptions.md R171: exactly when one byte is left, in either mode, and nothing else changes. -/
def Obligations.LoneByteIsTruncatedDescriptor : Prop :=
  ∀ (p : Params) (s : State), s.Inv p → s.state = .run →
    (s.cursor + 1 = s.len →
      parserStep p.ids s = .next { s with err := some .truncatedDescriptor, state := .error }) ∧
    (∀ t, parserStep p.ids s = .next t → t.err = some .truncatedDescriptor → s.cursor + 1 = s.len)

/-- 60_exceptions.md R170 to R174, R176: which failure a step of a running parse reports, if any: the first of the fixed
order, at any parameters. -/
def Obligations.FailuresAreReportedInTheFixedOrder : Prop :=
  ∀ (p : Params) (s : State), s.Inv p → s.state = .run →
    ∃ t, parserStep p.ids s = .next t ∧ t.err = s.reportedFailure (decodeDescriptor p.ids s.mode s.descriptor)

/-- 60_exceptions.md R175: what a failing step leaves, the failure being entered from a running parse. -/
def Obligations.FailureEntryChangesOnlyErrAndState : Prop :=
  ∀ (p : Params) (s t : State), s.Inv p → s.state = .run → parserStep p.ids s = .next t → t.state = .error →
    t = { s with err := t.err, state := .error, record := t.record } ∧ t.err ≠ none ∧
    (t.err ≠ some .overrunNestedGroup → t.record = s.record) ∧
    (t.err = some .overrunNestedGroup → t.record = s.acceptedRecord (decodeDescriptor p.ids s.mode s.descriptor)) ∧
    t.consumed = 0 ∧ t.endCause = none ∧ parserStep p.ids t = .next t

/-- 40_walker.md R95: the three places where a parse ends successfully, and what the ending leaves. -/
def Obligations.SuccessfulEndings : Prop :=
  ∀ (p : Params) (s t : State), s.Inv p → s.state = .run → parserStep p.ids s = .next t → t.state = .done →
    t.consumed = t.cursor ∧ t.err = none ∧ t.cursor ≤ t.len ∧
    ((t.endCause = some .exhausted ∧ s.cursor = s.len ∧ t.cursor = s.len) ∨
     (t.endCause = some .listTerm ∧ s.mode = .notNested ∧ ∃ len, decodeDescriptor p.ids .notNested s.descriptor = .hieListTerm2 len ∧
        t.cursor = s.cursor + 2 + len.toNat) ∨
     (t.endCause = some .groupDone ∧ s.mode = .nested ∧
        s.mlmeRem.toNat = 2 + (decodeDescriptor p.ids .nested s.descriptor).declaredLen ∧
        t.cursor = s.cursor + s.mlmeRem.toNat))

/-- 40_walker.md R100: how the cursor and the mode move in a step that reads a descriptor and does not raise. -/
def Obligations.CursorAndModeMovement : Prop :=
  ∀ (p : Params) (s t : State) (i : Instr), s.Inv p → s.state = .run → s.bytesLeft 2 →
    i = decodeDescriptor p.ids s.mode s.descriptor → parserStep p.ids s = .next t → t.state ≠ .error →
    t.cursor ≤ t.len ∧
    (∀ len, i = .pieMlme len →
      t.cursor = s.cursor + 2 ∧ t.mlmeRem = len ∧ t.state = .run ∧ (t.mode = .nested ↔ len ≠ 0)) ∧
    ((∀ len, i ≠ .pieMlme len) → t.cursor = s.cursor + 2 + i.declaredLen) ∧
    ((∀ len, i ≠ .pieMlme len) → s.mode = .notNested →
      t.mlmeRem = 0 ∧ (t.state = .done ↔ ∃ len, i = .hieListTerm2 len) ∧
        (t.state = .done → t.endCause = some .listTerm)) ∧
    (s.mode = .nested →
      t.mlmeRem.toNat + (2 + i.declaredLen) = s.mlmeRem.toNat ∧ (t.state = .done ↔ t.mlmeRem = 0) ∧
        (t.state = .done → t.endCause = some .groupDone))

/-- 40_walker.md R96: a step ends the parse or moves the cursor forward by 2 or more, and a parse ends within
`floor(LEN / 2) + 1` steps. -/
def Obligations.EveryParseEndsWithinItsBound : Prop :=
  (∀ (p : Params) (s t : State), s.Inv p → s.state = .run → parserStep p.ids s = .next t →
    (t.state = .done ∨ t.state = .error) ∨ t.state = .run ∧ s.cursor + 2 ≤ t.cursor) ∧
  (∀ (p : Params) (s : State), s.Inv p → s.state = .run → s.turns = [] →
    ∃ t, Host.Core.run (coreOf p) ((s.len - s.cursor) / 2 + 1) s = .next t ∧
      (t.state = .done ∨ t.state = .error)) ∧
  (∀ (p : Params) (s : State) (discard : Bool), s.Inv p → s.state ≠ .run → s.turns = [] →
    ∃ t, Host.Core.run (coreOf p) (s.len / 2 + 1) (s.startParse discard) = .next t ∧
      (t.state = .done ∨ t.state = .error))

/-! ## The whole machine -/

/-- 20_memory.md R44: a read outside the valid bytes would stop the machine by name, which is the model's choice (log entry
10, DESIGN CHOICE), and no step of any state stops; so every read a step performs lies inside the valid bytes. -/
def Obligations.NoReadOutsideTheValidBytes : Prop :=
  (∀ (s : State) (a n : Nat), s.len < a + n → memRead s a n = .error (.readBeyondLen a n)) ∧
  (∀ (p : Params) (s : State), ∃ t, turnStep p s = .next t)

/-- The invariant of Safety.lean (10_state.md R31 as log entry 13 reads it, the canonical form of the buffer, and `LEN`,
`CURSOR` and `CONSUMED` inside `LEN_W` bits, 40_walker.md R97) is kept by every step of every agent, for every `LEN_W`. -/
def Obligations.EveryStepKeepsTheInvariant : Prop :=
  ∀ (p : Params) (s t : State), s.Inv p → turnStep p s = .next t → t.Inv p

/-- The invariant holds after every reset, whatever the draw, and at `State.reset`. -/
def Obligations.InvariantHoldsAtReset : Prop :=
  ∀ p : Params, State.reset.Inv p ∧ ∀ (d : ResetDraw) (s : State), (s.takeReset p d).Inv p

/-- 10_state.md R31 (a) to (e) as written is kept by every step but a host write of `LEN` (log entry 13). -/
def Obligations.EveryStepButALenWriteKeepsR31 : Prop :=
  ∀ (p : Params) (s t : State), s.R31 p → (∀ turn rest, s.turns = turn :: rest → turn.writesLen = false) →
    turnStep p s = .next t → t.R31 p

/-- Against 10_state.md R31 (a) as written (log entry 13): by 45_host_commands.md R152 a host may write `LEN` below
`CURSOR` once a parse is over. -/
def Obligations.LenWriteAfterAParsePassesTheCursor : Prop :=
  ∀ (p : Params) (s : State) (v : Nat) (rest : List Turn), s.state = .done → s.turns = .host (.writeReg 2 v) :: rest →
    v % 2 ^ p.lenW < s.cursor →
    ∃ t, turnStep p s = .next t ∧ t.state = .done ∧ t.len < t.cursor

/-- 40_walker.md R102, 45_host_commands.md R153: `DISCARD` and the prior contents of the result registers steer nothing,
for any number of steps. -/
def Obligations.DiscardAndRecordSteerNothing : Prop :=
  ∀ (p : Params) (k : Nat) (s t : State), s.turns = [] → s.sameWalk t →
    ∃ s' t', Host.Core.run (coreOf p) k s = .next s' ∧ Host.Core.run (coreOf p) k t = .next t' ∧ s'.sameWalk t' ∧
      (t.discard = true → t'.record = t.record)

/-- 10_state.md R11, 40_walker.md R101, R102: the bytes at and beyond `LEN` have no effect, for any number of steps. -/
def Obligations.BytesBeyondLenHaveNoEffect : Prop :=
  ∀ (p : Params) (k : Nat) (s t : State), s.turns = [] → s.sameFrame t →
    ∃ s' t', Host.Core.run (coreOf p) k s = .next s' ∧ Host.Core.run (coreOf p) k t = .next t' ∧ s'.sameFrame t'

/-! ## The host -/

/-- 45_host_commands.md R157, 20_memory.md R47: while a parse runs, no host commands, however many, change any state of
the block; the environment has the replies to its reads and the turns are taken. -/
def Obligations.HostCommandsDuringRunChangeNothing : Prop :=
  ∀ (p : Params) (cs : List HostCommand) (s : State) (rest : List Turn),
    s.state = .run → s.turns = cs.map .host ++ rest →
    ∃ r, Host.Core.run (coreOf p) cs.length s = .next { s with turns := rest, replies := s.replies ++ r }

/-- 20_memory.md R48 (b): once a parse is over, the parser's turns and the host's reads leave all of the block as it is. -/
def Obligations.ResultsStayAfterCompletion : Prop :=
  ∀ (p : Params) (s : State) (rest : List Turn) (n a : Nat), s.state = .done ∨ s.state = .error →
    (s.turns = .parser :: rest → turnStep p s = .next { s with turns := rest }) ∧
    (s.turns = .host (.readReg n) :: rest →
      ∃ r, turnStep p s = .next { s with turns := rest, replies := s.replies ++ [r] }) ∧
    (s.turns = .host (.readBuf a) :: rest →
      ∃ r, turnStep p s = .next { s with turns := rest, replies := s.replies ++ [r] })

/-- 45_host_commands.md R152, register numbers of 10_state.md R28, R29: every host write of a register other than `START`,
the value reduced to the register's width (00_scope.md R8). -/
def Obligations.HostRegisterWrites : Prop :=
  ∀ (p : Params) (s : State) (n v : Nat) (rest : List Turn), s.turns = .host (.writeReg n v) :: rest →
    (s.state = .run → turnStep p s = .next { s with turns := rest }) ∧
    (s.state ≠ .run →
      (n = 0 → v.testBit 0 = false → turnStep p s = .next { s with turns := rest, discard := v.testBit 1 }) ∧
      (n = 2 → turnStep p s = .next { s with turns := rest, len := v % 2 ^ p.lenW }) ∧
      (n = 8 → turnStep p s =
        .next { s with turns := rest, record := { s.record with timeCorrection := BitVec.ofNat 16 v } }) ∧
      (n = 9 → turnStep p s = .next { s with turns := rest, record := { s.record with isNack := v.testBit 0 } }) ∧
      (n = 10 → turnStep p s = .next { s with turns := rest, record := { s.record with asnLs4b := BitVec.ofNat 32 v } }) ∧
      (n = 11 → turnStep p s = .next { s with turns := rest, record := { s.record with asnMs1b := BitVec.ofNat 8 v } }) ∧
      (n = 12 → turnStep p s =
        .next { s with turns := rest, record := { s.record with joinPriority := BitVec.ofNat 8 v } }) ∧
      (n = 13 → turnStep p s =
        .next { s with turns := rest, record := { s.record with tschTimeslotId := BitVec.ofNat 8 v } }) ∧
      (n = 14 → turnStep p s =
        .next { s with turns := rest, record := { s.record with channelHoppingSequenceId := BitVec.ofNat 8 v } }) ∧
      (n ∉ [0, 2, 8, 9, 10, 11, 12, 13, 14] → turnStep p s = .next { s with turns := rest }))

/-- 45_host_commands.md R155, register numbers and widths of 10_state.md R28, R29: what `ReadReg` returns, in any state,
and that it changes nothing else. That the value returned is a number, the register's bits read as unsigned (the signed
`TIME_CORRECTION` too), is the model's choice (log entry 8, DESIGN CHOICE). -/
def Obligations.HostRegisterReads : Prop :=
  ∀ (p : Params) (s : State) (n : Nat) (rest : List Turn), s.turns = .host (.readReg n) :: rest →
    ∃ v : Nat, turnStep p s = .next { s with turns := rest, replies := s.replies ++ [.reg n v] } ∧
      (n = 0 → v = if s.discard then 2 else 0) ∧
      (n = 1 → v = s.statusWord.toNat) ∧
      (n = 2 → v = s.len) ∧
      (n = 3 → v = s.consumed) ∧
      (n = 4 → v = s.cursor) ∧
      (n = 5 → v = s.mlmeRem.toNat) ∧
      (n = 8 → v = s.record.timeCorrection.toNat) ∧
      (n = 9 → v = s.record.isNack.toNat) ∧
      (n = 10 → v = s.record.asnLs4b.toNat) ∧
      (n = 11 → v = s.record.asnMs1b.toNat) ∧
      (n = 12 → v = s.record.joinPriority.toNat) ∧
      (n = 13 → v = s.record.tschTimeslotId.toNat) ∧
      (n = 14 → v = s.record.channelHoppingSequenceId.toNat) ∧
      (n ∈ [6, 7, 15] ∨ 15 < n → v = 0)

/-- 10_state.md R24: the four fields of `STATUS`, their numbers, when they are nonzero, and that a host write of it is
ignored. -/
def Obligations.StatusFields : Prop :=
  (∀ s : State,
    (s.statusWord.extractLsb' 0 2).toNat =
      (match s.state with | .idle => 0 | .run => 1 | .done => 2 | .error => 3) ∧
    (s.statusWord.extractLsb' 2 3).toNat =
      (match s.err with
        | none => 0
        | some .truncatedDescriptor => 1
        | some .truncatedPayload => 2
        | some .invalidLength => 3
        | some .overrunNestedGroup => 4) ∧
    (s.statusWord.extractLsb' 5 2).toNat =
      (match s.endCause with | none => 0 | some .listTerm => 1 | some .groupDone => 2 | some .exhausted => 3) ∧
    s.statusWord.getLsbD 7 = (s.mlmeRem != 0)) ∧
  (∀ (p : Params) (s : State) (v : Nat) (rest : List Turn), s.turns = .host (.writeReg 1 v) :: rest →
    turnStep p s = .next { s with turns := rest }) ∧
  (∀ (p : Params) (s : State), s.Inv p →
    (s.statusWord.extractLsb' 2 3 ≠ 0 ↔ s.statusWord.extractLsb' 0 2 = 3) ∧
    (s.statusWord.extractLsb' 5 2 ≠ 0 ↔ s.statusWord.extractLsb' 0 2 = 2))

/-! ## Reset -/

/-- 70_reset_and_hazards.md R190, 10_state.md R30: a reset from any state, `RUN` included; what the spec leaves unspecified
is whatever the reset's draw holds, and every buffer in canonical form and every record can be drawn. That the lists of the
environment stay is the model's choice (log entry 17, DESIGN CHOICE). -/
def Obligations.ResetFromAnyState : Prop :=
  ∀ (p : Params) (s : State) (d : ResetDraw) (rest : List Turn), s.turns = .reset d :: rest →
    ∃ t, turnStep p s = .next t ∧
      t.state = .idle ∧ t.err = none ∧ t.endCause = none ∧ t.discard = false ∧ t.len = 0 ∧ t.consumed = 0 ∧
      t.cursor = 0 ∧ t.mlmeRem = 0 ∧ t.mode = .notNested ∧ t.statusWord = 0 ∧ t.record = d.record ∧
      t.buf.wf p.bufCap = true ∧ (Memory.wf p.bufCap d.buf = true → t.buf = d.buf) ∧
      t.turns = rest ∧ t.replies = s.replies ∧ parserStep p.ids t = .next t

/-- `State.reset`: the control values of 10_state.md R30. The zero draw it holds beside them is the model's choice (log
entries 3 and 4) and this statement says no more of it than that it is the draw `ResetDraw.zero`. -/
def Obligations.ResetStateHoldsTheControlValues : Prop :=
  State.reset.state = .idle ∧ State.reset.err = none ∧ State.reset.endCause = none ∧ State.reset.discard = false ∧
  State.reset.len = 0 ∧ State.reset.consumed = 0 ∧ State.reset.cursor = 0 ∧ State.reset.mlmeRem = 0 ∧
  State.reset.statusWord = 0 ∧ State.reset.readReg 0 = 0 ∧
  ∀ p : Params, State.reset = State.takeReset p ResetDraw.zero State.reset

/-! ## Fields and placing -/

/-- 30_encoding.md R67, 40_walker.md R97, 95_test_vectors.md E4: every drift of 12 bits and every flag survive the
time-correction field, the corners of `sext_12` are exact, and bits 14 to 12 are ignored. -/
def Obligations.TimeCorrectionField : Prop :=
  (∀ (tc : Int) (nack : Bool) (junk : Nat), -2048 ≤ tc → tc ≤ 2047 → junk < 8 →
    isNackOf (BitVec.ofNat 16 (nack.toNat * 32768 + junk * 4096 + (tc % 4096).toNat)) = nack ∧
    (timeCorrectionOf (BitVec.ofNat 16 (nack.toNat * 32768 + junk * 4096 + (tc % 4096).toNat))).toInt = tc) ∧
  ((timeCorrectionOf 0x7FF).toInt = 2047 ∧ (timeCorrectionOf 0x800).toInt = -2048 ∧
    (timeCorrectionOf 0xFFF).toInt = -1 ∧ (timeCorrectionOf 0x000).toInt = 0)

/-- `State.withFetchWord` (the model's own, log entries 11 and 12): the next step runs the word's instruction. -/
def Obligations.PlacedWordIsRunNext : Prop :=
  ∀ (s : State) (nbits w : Nat), s.buf.wf defaultParams.bufCap = true →
    (8 < nbits → ∃ i, decodeTableWord nbits w = some i ∧
      step (s.withFetchWord nbits w) = exec i (s.withFetchWord nbits w)) ∧
    (nbits ≤ 8 → ∃ i, decodeTableWord nbits w = some i ∧ step (s.withFetchWord nbits w) = exec i s)
end

