-- ==== Sys2Proof/Laws/Memory.lean ====
section
/-! SUPPORT. The laws of the buffer: reading after a store, and that every operation keeps the canonical form. -/

namespace Sys2Proof.Machine

@[simp] theorem Memory.read_nil (a : Nat) : Memory.read [] a = Config.unwrittenByte := rfl

@[simp] theorem Memory.read_cons (k : Nat) (v : Byte) (m : Memory) (a : Nat) :
    Memory.read ((k, v) :: m) a = if k = a then v else Memory.read m a := rfl

/-- What the canonical form says of a listed cell and the cells after it. -/
theorem Memory.wf_cons_iff {cap : Nat} (k : Nat) (v : Byte) (m : Memory) :
    Memory.wf cap ((k, v) :: m) = true ↔
      k < cap ∧ v ≠ Config.unwrittenByte ∧ (∀ c ∈ m, k < c.1) ∧ Memory.wf cap m = true := by
  simp [Memory.wf, and_assoc]

/-- An offset below every listed one is unlisted. -/
theorem Memory.read_of_below {m : Memory} {a : Nat} (h : ∀ c ∈ m, a < c.1) : m.read a = Config.unwrittenByte := by
  induction m with
  | nil => rfl
  | cons c m ih =>
    obtain ⟨k, v⟩ := c
    have hk : a < k := h (k, v) (by simp)
    rw [Memory.read_cons, if_neg (by omega)]
    exact ih fun c hc => h c (by simp [hc])

/-- Storing leaves every other offset alone; no hypothesis on the buffer. -/
theorem Memory.read_write_other (m : Memory) {a x : Nat} (b : Byte) (h : x ≠ a) :
    (m.write a b).read x = m.read x := by
  induction m with
  | nil =>
    unfold Memory.write
    split
    · rfl
    · rw [Memory.read_cons, if_neg (Ne.symm h)]
  | cons c m ih =>
    obtain ⟨k, v⟩ := c
    unfold Memory.write
    split
    · split
      · rfl
      · rw [Memory.read_cons, if_neg (Ne.symm h)]
    · split
      · rename_i hak
        split
        · rw [Memory.read_cons, if_neg (by omega)]
        · rw [Memory.read_cons, Memory.read_cons, if_neg (Ne.symm h), if_neg (by omega)]
      · rw [Memory.read_cons, Memory.read_cons, ih]

/-- Reading what was stored, in a buffer in canonical form. -/
theorem Memory.read_write_same {cap : Nat} {m : Memory} (hm : m.wf cap = true) (a : Nat) (b : Byte) :
    (m.write a b).read a = b := by
  induction m with
  | nil =>
    unfold Memory.write
    split
    · rename_i hb; rw [hb]; rfl
    · simp
  | cons c m ih =>
    obtain ⟨k, v⟩ := c
    obtain ⟨-, -, hbelow, hwf⟩ := (Memory.wf_cons_iff k v m).1 hm
    unfold Memory.write
    split
    · rename_i hak
      split
      · rename_i hb
        rw [Memory.read_cons, if_neg (by omega), hb]
        exact Memory.read_of_below fun c hc => lt_trans hak (hbelow c hc)
      · simp
    · split
      · rename_i hak
        split
        · rename_i hb
          rw [hb]
          exact Memory.read_of_below fun c hc => hak ▸ hbelow c hc
        · simp
      · rename_i hak
        rw [Memory.read_cons, if_neg (fun hka => hak hka.symm)]
        exact ih hwf

/-- Where the cells of a stored-to buffer come from. -/
theorem Memory.mem_write {m : Memory} {a : Nat} {b : Byte} {c : Host.Cell} (h : c ∈ m.write a b) :
    c = (a, b) ∨ c ∈ m := by
  induction m with
  | nil =>
    unfold Memory.write at h
    split at h
    · simp at h
    · simpa using h
  | cons d m ih =>
    obtain ⟨k, v⟩ := d
    unfold Memory.write at h
    split at h
    · split at h
      · exact .inr h
      · simpa using h
    · split at h
      · split at h
        · exact .inr (List.mem_cons_of_mem _ h)
        · rcases List.mem_cons.1 h with h | h
          · exact .inl h
          · exact .inr (List.mem_cons_of_mem _ h)
      · rcases List.mem_cons.1 h with h | h
        · exact .inr (by simp [h])
        · rcases ih h with h | h
          · exact .inl h
          · exact .inr (List.mem_cons_of_mem _ h)

/-- A store inside the buffer keeps the canonical form. -/
theorem Memory.write_wf {cap : Nat} {m : Memory} (hm : m.wf cap = true) {a : Nat} (ha : a < cap) (b : Byte) :
    (m.write a b).wf cap = true := by
  induction m with
  | nil =>
    unfold Memory.write
    split
    · rfl
    · rename_i hb
      exact (Memory.wf_cons_iff a b []).2 ⟨ha, hb, by simp, rfl⟩
  | cons c m ih =>
    obtain ⟨k, v⟩ := c
    obtain ⟨hk, hv, hbelow, hwf⟩ := (Memory.wf_cons_iff k v m).1 hm
    unfold Memory.write
    split
    · rename_i hak
      split
      · exact hm
      · rename_i hb
        refine (Memory.wf_cons_iff a b _).2 ⟨ha, hb, fun c hc => ?_, hm⟩
        rcases List.mem_cons.1 hc with rfl | hc
        · exact hak
        · exact lt_trans hak (hbelow c hc)
    · split
      · rename_i hak
        split
        · exact hwf
        · rename_i hb
          exact (Memory.wf_cons_iff a b m).2 ⟨ha, hb, fun c hc => hak ▸ hbelow c hc, hwf⟩
      · rename_i h1 h2
        refine (Memory.wf_cons_iff k v _).2 ⟨hk, hv, fun c hc => ?_, ih hwf⟩
        rcases Memory.mem_write hc with rfl | hc
        · exact lt_of_le_of_ne (Nat.le_of_not_lt h1) (Ne.symm h2)
        · exact hbelow c hc

/-- A host's store keeps the canonical form at every offset. -/
theorem Memory.store_wf {cap : Nat} {m : Memory} (hm : m.wf cap = true) (a : Nat) (b : Byte) :
    (m.store cap a b).wf cap = true := by
  unfold Memory.store
  split
  · rename_i ha; exact Memory.write_wf hm ha b
  · exact hm

/-- Reading after a host's store. -/
theorem Memory.read_store {cap : Nat} {m : Memory} (hm : m.wf cap = true) (a x : Nat) (b : Byte) :
    (m.store cap a b).read x = if a < cap ∧ x = a then b else m.read x := by
  unfold Memory.store
  by_cases ha : a < cap
  · by_cases hx : x = a
    · subst hx; simp [ha, Memory.read_write_same hm]
    · simp [ha, hx, Memory.read_write_other]
  · simp [ha]

/-- The buffer of a reset's draw is in canonical form, whatever the draw. -/
theorem Memory.ofCells_wf (cap : Nat) (cells : List Host.Cell) : (Memory.ofCells cap cells).wf cap = true := by
  suffices h : ∀ m : Memory, m.wf cap = true →
      (cells.foldl (fun m c => Memory.store cap m c.1 c.2) m).wf cap = true from
    h [] rfl
  induction cells with
  | nil => exact fun m hm => hm
  | cons c cells ih => exact fun m hm => ih _ (Memory.store_wf hm c.1 c.2)

/-- Storing a number keeps the canonical form. -/
theorem Memory.storeNumber_wf {cap : Nat} {m : Memory} (hm : m.wf cap = true) (a w n : Nat) :
    (m.storeNumber cap a w n).wf cap = true := by
  induction n generalizing m a w with
  | zero => exact hm
  | succ n ih => exact ih (Memory.store_wf hm a _) _ _

/-- Storing a number from an offset leaves the offsets below it alone. -/
theorem Memory.read_storeNumber_below {cap : Nat} {m : Memory} (hm : m.wf cap = true) {a x : Nat} (h : x < a)
    (w n : Nat) :
    (m.storeNumber cap a w n).read x = m.read x := by
  induction n generalizing m a w with
  | zero => rfl
  | succ n ih =>
    unfold Memory.storeNumber
    rw [ih (Memory.store_wf hm a _) (by omega), Memory.read_store hm, if_neg (by omega)]

@[simp] theorem Memory.littleEndian_zero (m : Memory) (a : Nat) : m.littleEndian a 0 = 0 := rfl

theorem Memory.littleEndian_succ (m : Memory) (a n : Nat) :
    m.littleEndian a (n + 1) = (m.read a).toNat + 256 * m.littleEndian (a + 1) n := rfl

/-- A little-endian value depends on the bytes it is read from only. -/
theorem Memory.littleEndian_congr {m m' : Memory} {a n : Nat} (h : ∀ x, a ≤ x → x < a + n → m.read x = m'.read x) :
    m.littleEndian a n = m'.littleEndian a n := by
  induction n generalizing a with
  | zero => rfl
  | succ n ih =>
    rw [Memory.littleEndian_succ, Memory.littleEndian_succ, h a (by omega) (by omega),
      ih fun x h1 h2 => h x (by omega) (by omega)]

end Sys2Proof.Machine
end

