-- ==== Sys2Proof/Laws/State.lean ====
section
/-! SUPPORT. One lemma per field and update of `State`: what each shared update leaves in each field. -/

namespace Sys2Proof.Machine

/-! ## `State.raise` -/

@[simp] theorem State.raise_buf (e : ParseFailure) (s : State) : (s.raise e).buf = s.buf := rfl

@[simp] theorem State.raise_len (e : ParseFailure) (s : State) : (s.raise e).len = s.len := rfl

@[simp] theorem State.raise_discard (e : ParseFailure) (s : State) : (s.raise e).discard = s.discard := rfl

@[simp] theorem State.raise_state (e : ParseFailure) (s : State) : (s.raise e).state = .error := rfl

@[simp] theorem State.raise_err (e : ParseFailure) (s : State) : (s.raise e).err = some e := rfl

@[simp] theorem State.raise_endCause (e : ParseFailure) (s : State) : (s.raise e).endCause = s.endCause := rfl

@[simp] theorem State.raise_cursor (e : ParseFailure) (s : State) : (s.raise e).cursor = s.cursor := rfl

@[simp] theorem State.raise_mlmeRem (e : ParseFailure) (s : State) : (s.raise e).mlmeRem = s.mlmeRem := rfl

@[simp] theorem State.raise_consumed (e : ParseFailure) (s : State) : (s.raise e).consumed = s.consumed := rfl

@[simp] theorem State.raise_record (e : ParseFailure) (s : State) : (s.raise e).record = s.record := rfl

@[simp] theorem State.raise_turns (e : ParseFailure) (s : State) : (s.raise e).turns = s.turns := rfl

@[simp] theorem State.raise_replies (e : ParseFailure) (s : State) : (s.raise e).replies = s.replies := rfl

/-! ## `State.finish` -/

@[simp] theorem State.finish_buf (cause : EndCause) (n : Nat) (s : State) : (s.finish cause n).buf = s.buf := rfl

@[simp] theorem State.finish_len (cause : EndCause) (n : Nat) (s : State) : (s.finish cause n).len = s.len := rfl

@[simp] theorem State.finish_discard (cause : EndCause) (n : Nat) (s : State) : (s.finish cause n).discard = s.discard := rfl

@[simp] theorem State.finish_state (cause : EndCause) (n : Nat) (s : State) : (s.finish cause n).state = .done := rfl

@[simp] theorem State.finish_err (cause : EndCause) (n : Nat) (s : State) : (s.finish cause n).err = s.err := rfl

@[simp] theorem State.finish_endCause (cause : EndCause) (n : Nat) (s : State) : (s.finish cause n).endCause = some cause := rfl

@[simp] theorem State.finish_cursor (cause : EndCause) (n : Nat) (s : State) : (s.finish cause n).cursor = n := rfl

@[simp] theorem State.finish_mlmeRem (cause : EndCause) (n : Nat) (s : State) : (s.finish cause n).mlmeRem = s.mlmeRem := rfl

@[simp] theorem State.finish_consumed (cause : EndCause) (n : Nat) (s : State) : (s.finish cause n).consumed = n := rfl

@[simp] theorem State.finish_record (cause : EndCause) (n : Nat) (s : State) : (s.finish cause n).record = s.record := rfl

@[simp] theorem State.finish_turns (cause : EndCause) (n : Nat) (s : State) : (s.finish cause n).turns = s.turns := rfl

@[simp] theorem State.finish_replies (cause : EndCause) (n : Nat) (s : State) : (s.finish cause n).replies = s.replies := rfl

/-! ## `State.advance` -/

@[simp] theorem State.advance_buf (n : Nat) (s : State) : (s.advance n).buf = s.buf := rfl

@[simp] theorem State.advance_len (n : Nat) (s : State) : (s.advance n).len = s.len := rfl

@[simp] theorem State.advance_discard (n : Nat) (s : State) : (s.advance n).discard = s.discard := rfl

@[simp] theorem State.advance_state (n : Nat) (s : State) : (s.advance n).state = s.state := rfl

@[simp] theorem State.advance_err (n : Nat) (s : State) : (s.advance n).err = s.err := rfl

@[simp] theorem State.advance_endCause (n : Nat) (s : State) : (s.advance n).endCause = s.endCause := rfl

@[simp] theorem State.advance_cursor (n : Nat) (s : State) : (s.advance n).cursor = n := rfl

@[simp] theorem State.advance_mlmeRem (n : Nat) (s : State) : (s.advance n).mlmeRem = s.mlmeRem := rfl

@[simp] theorem State.advance_consumed (n : Nat) (s : State) : (s.advance n).consumed = s.consumed := rfl

@[simp] theorem State.advance_record (n : Nat) (s : State) : (s.advance n).record = s.record := rfl

@[simp] theorem State.advance_turns (n : Nat) (s : State) : (s.advance n).turns = s.turns := rfl

@[simp] theorem State.advance_replies (n : Nat) (s : State) : (s.advance n).replies = s.replies := rfl

/-! ## `State.reply` -/

@[simp] theorem State.reply_buf (r : HostReply) (s : State) : (s.reply r).buf = s.buf := rfl

@[simp] theorem State.reply_len (r : HostReply) (s : State) : (s.reply r).len = s.len := rfl

@[simp] theorem State.reply_discard (r : HostReply) (s : State) : (s.reply r).discard = s.discard := rfl

@[simp] theorem State.reply_state (r : HostReply) (s : State) : (s.reply r).state = s.state := rfl

@[simp] theorem State.reply_err (r : HostReply) (s : State) : (s.reply r).err = s.err := rfl

@[simp] theorem State.reply_endCause (r : HostReply) (s : State) : (s.reply r).endCause = s.endCause := rfl

@[simp] theorem State.reply_cursor (r : HostReply) (s : State) : (s.reply r).cursor = s.cursor := rfl

@[simp] theorem State.reply_mlmeRem (r : HostReply) (s : State) : (s.reply r).mlmeRem = s.mlmeRem := rfl

@[simp] theorem State.reply_consumed (r : HostReply) (s : State) : (s.reply r).consumed = s.consumed := rfl

@[simp] theorem State.reply_record (r : HostReply) (s : State) : (s.reply r).record = s.record := rfl

@[simp] theorem State.reply_turns (r : HostReply) (s : State) : (s.reply r).turns = s.turns := rfl

@[simp] theorem State.reply_replies (r : HostReply) (s : State) : (s.reply r).replies = s.replies ++ [r] := rfl

/-! ## `State.takeReset` -/

@[simp] theorem State.takeReset_buf (p : Params) (d : ResetDraw) (s : State) : (s.takeReset p d).buf = Memory.ofCells p.bufCap d.buf := rfl

@[simp] theorem State.takeReset_len (p : Params) (d : ResetDraw) (s : State) : (s.takeReset p d).len = 0 := rfl

@[simp] theorem State.takeReset_discard (p : Params) (d : ResetDraw) (s : State) : (s.takeReset p d).discard = false := rfl

@[simp] theorem State.takeReset_state (p : Params) (d : ResetDraw) (s : State) : (s.takeReset p d).state = .idle := rfl

@[simp] theorem State.takeReset_err (p : Params) (d : ResetDraw) (s : State) : (s.takeReset p d).err = none := rfl

@[simp] theorem State.takeReset_endCause (p : Params) (d : ResetDraw) (s : State) : (s.takeReset p d).endCause = none := rfl

@[simp] theorem State.takeReset_cursor (p : Params) (d : ResetDraw) (s : State) : (s.takeReset p d).cursor = 0 := rfl

@[simp] theorem State.takeReset_mlmeRem (p : Params) (d : ResetDraw) (s : State) : (s.takeReset p d).mlmeRem = 0 := rfl

@[simp] theorem State.takeReset_consumed (p : Params) (d : ResetDraw) (s : State) : (s.takeReset p d).consumed = 0 := rfl

@[simp] theorem State.takeReset_record (p : Params) (d : ResetDraw) (s : State) : (s.takeReset p d).record = d.record := rfl

@[simp] theorem State.takeReset_turns (p : Params) (d : ResetDraw) (s : State) : (s.takeReset p d).turns = s.turns := rfl

@[simp] theorem State.takeReset_replies (p : Params) (d : ResetDraw) (s : State) : (s.takeReset p d).replies = s.replies := rfl

/-! ## `State.writeRecord` -/

@[simp] theorem State.writeRecord_buf (f : Record → Record) (s : State) : (s.writeRecord f).buf = s.buf := by
  unfold State.writeRecord; split <;> rfl

@[simp] theorem State.writeRecord_len (f : Record → Record) (s : State) : (s.writeRecord f).len = s.len := by
  unfold State.writeRecord; split <;> rfl

@[simp] theorem State.writeRecord_discard (f : Record → Record) (s : State) : (s.writeRecord f).discard = s.discard := by
  unfold State.writeRecord; split <;> rfl

@[simp] theorem State.writeRecord_state (f : Record → Record) (s : State) : (s.writeRecord f).state = s.state := by
  unfold State.writeRecord; split <;> rfl

@[simp] theorem State.writeRecord_err (f : Record → Record) (s : State) : (s.writeRecord f).err = s.err := by
  unfold State.writeRecord; split <;> rfl

@[simp] theorem State.writeRecord_endCause (f : Record → Record) (s : State) : (s.writeRecord f).endCause = s.endCause := by
  unfold State.writeRecord; split <;> rfl

@[simp] theorem State.writeRecord_cursor (f : Record → Record) (s : State) : (s.writeRecord f).cursor = s.cursor := by
  unfold State.writeRecord; split <;> rfl

@[simp] theorem State.writeRecord_mlmeRem (f : Record → Record) (s : State) : (s.writeRecord f).mlmeRem = s.mlmeRem := by
  unfold State.writeRecord; split <;> rfl

@[simp] theorem State.writeRecord_consumed (f : Record → Record) (s : State) : (s.writeRecord f).consumed = s.consumed := by
  unfold State.writeRecord; split <;> rfl

@[simp] theorem State.writeRecord_record (f : Record → Record) (s : State) : (s.writeRecord f).record = if s.discard then s.record else f s.record := by
  unfold State.writeRecord; split <;> rfl

@[simp] theorem State.writeRecord_turns (f : Record → Record) (s : State) : (s.writeRecord f).turns = s.turns := by
  unfold State.writeRecord; split <;> rfl

@[simp] theorem State.writeRecord_replies (f : Record → Record) (s : State) : (s.writeRecord f).replies = s.replies := by
  unfold State.writeRecord; split <;> rfl

/-! ## The two updates that a running parse drops -/

theorem State.startParse_of_run (discard : Bool) {s : State} (h : s.state = .run) : s.startParse discard = s := by
  simp [State.startParse, h]

theorem State.startParse_of_not_run (discard : Bool) {s : State} (h : s.state ≠ .run) :
    s.startParse discard =
      { s with
        discard := discard
        cursor := 0
        mlmeRem := 0
        consumed := 0
        err := none
        endCause := none
        state := .run } := by
  simp [State.startParse, h]

theorem State.writeReg_of_run (p : Params) (n v : Nat) {s : State} (h : s.state = .run) : s.writeReg p n v = s := by
  simp [State.writeReg, h]

theorem State.writeBuf_of_run (p : Params) (a : Nat) (b : Byte) {s : State} (h : s.state = .run) : s.writeBuf p a b = s := by
  simp [State.writeBuf, h]

/-- A host write of `LEN` that is not dropped fits the register. -/
theorem State.writeReg_len_lt (p : Params) (v : Nat) {s : State} (h : s.state ≠ .run) :
    (s.writeReg p 2 v).len < 2 ^ p.lenW := by
  simp only [State.writeReg, if_neg h, if_true]
  exact Nat.mod_lt _ (Nat.two_pow_pos _)

/-- What a host write of a register can do: set `LEN`, set the record, or nothing. -/
theorem State.writeReg_cases (p : Params) (n v : Nat) (s : State) :
    (s.state = .run ∧ s.writeReg p n v = s) ∨
    (s.state ≠ .run ∧ n = 2 ∧ s.writeReg p n v = { s with len := v % 2 ^ p.lenW }) ∨
    (s.state ≠ .run ∧ n ≠ 2 ∧ s.writeReg p n v = { s with record := s.record.write n v }) := by
  unfold State.writeReg
  by_cases hr : s.state = .run
  · exact .inl ⟨hr, if_pos hr⟩
  · by_cases hn : n = 2
    · exact .inr (.inl ⟨hr, hn, by rw [if_neg hr, if_pos hn]⟩)
    · exact .inr (.inr ⟨hr, hn, by rw [if_neg hr, if_neg hn]⟩)

/-- What `START` can do. -/
theorem State.startParse_cases (discard : Bool) (s : State) :
    (s.state = .run ∧ s.startParse discard = s) ∨
    (s.state ≠ .run ∧ s.startParse discard =
      { s with
        discard := discard
        cursor := 0
        mlmeRem := 0
        consumed := 0
        err := none
        endCause := none
        state := .run }) := by
  by_cases hr : s.state = .run
  · exact .inl ⟨hr, State.startParse_of_run discard hr⟩
  · exact .inr ⟨hr, State.startParse_of_not_run discard hr⟩

/-- A write of the result record is the guarded record and nothing else. -/
theorem State.writeRecord_eq (f : Record → Record) (s : State) :
    s.writeRecord f = { s with record := if s.discard then s.record else f s.record } := by
  unfold State.writeRecord; split <;> rfl

end Sys2Proof.Machine
end

