-- ==== Sys2Proof/Laws/Ops.lean ====
section
/-! SUPPORT. What each shared operation of the walker can do, said once: later proofs cite these and do not unfold the
operations. -/

namespace Sys2Proof.Machine

/-! ## Modes and reads -/

theorem State.mode_eq_notNested_iff (s : State) : s.mode = .notNested ↔ s.mlmeRem = 0 := by
  unfold State.mode; split <;> simp_all

theorem State.mode_eq_nested_iff (s : State) : s.mode = .nested ↔ s.mlmeRem ≠ 0 := by
  unfold State.mode; split <;> simp_all

theorem memRead_of_le {s : State} {a n : Nat} (h : a + n ≤ s.len) :
    memRead s a n = .ok (s.buf.littleEndian a n) := if_pos h

theorem memRead_of_lt {s : State} {a n : Nat} (h : s.len < a + n) :
    memRead s a n = .error (.readBeyondLen a n) := if_neg (by omega)

/-- The value of a one-byte read is the byte. -/
theorem Memory.ofNat_littleEndian_one (m : Memory) (a : Nat) : BitVec.ofNat 8 (m.littleEndian a 1) = m.read a := by
  simp [Memory.littleEndian_succ]

/-- The value of a byte put below a word. -/
theorem toNat_append_byte {w : Nat} (x : BitVec w) (y : Byte) : (x ++ y).toNat = 256 * x.toNat + y.toNat := by
  rw [BitVec.toNat_append, Nat.shiftLeft_eq, mul_comm, ← Nat.two_pow_add_eq_or_of_lt y.isLt]

/-- The value of a two-byte read, low byte first. -/
theorem Memory.ofNat_littleEndian_two (m : Memory) (a : Nat) :
    BitVec.ofNat 16 (m.littleEndian a 2) = m.read (a + 1) ++ m.read a := by
  apply BitVec.eq_of_toNat_eq
  have h0 := (m.read a).isLt
  have h1 := (m.read (a + 1)).isLt
  have e := toNat_append_byte (m.read (a + 1)) (m.read a)
  refine Eq.trans ?_ e.symm
  simp only [Memory.littleEndian_succ, Memory.littleEndian_zero, BitVec.toNat_ofNat]
  omega

/-- The value of a four-byte read, low byte first. -/
theorem Memory.ofNat_littleEndian_four (m : Memory) (a : Nat) :
    BitVec.ofNat 32 (m.littleEndian a 4) = m.read (a + 3) ++ m.read (a + 2) ++ m.read (a + 1) ++ m.read a := by
  apply BitVec.eq_of_toNat_eq
  have h0 := (m.read a).isLt
  have h1 := (m.read (a + 1)).isLt
  have h2 := (m.read (a + 2)).isLt
  have h3 := (m.read (a + 3)).isLt
  have e1 := toNat_append_byte (m.read (a + 3)) (m.read (a + 2))
  have e2 := toNat_append_byte (m.read (a + 3) ++ m.read (a + 2)) (m.read (a + 1))
  have e3 := toNat_append_byte (m.read (a + 3) ++ m.read (a + 2) ++ m.read (a + 1)) (m.read a)
  refine Eq.trans ?_ e3.symm
  rw [e2, e1]
  simp only [Memory.littleEndian_succ, Memory.littleEndian_zero, BitVec.toNat_ofNat, add_assoc, Nat.reduceAdd]
  omega

/-! ## The truncation check -/

/-- A check that fails raises `TruncatedPayload`; one that passes goes on with `len` bytes left after the descriptor. -/
theorem checkPayload_cases (len : Nat) (s : State) (rest : Nat → Result) :
    (s.rem < len ∧ checkPayload len s rest = .next (s.raise .truncatedPayload)) ∨
    (len ≤ s.rem ∧ checkPayload len s rest = rest (s.cursor + 2)) := by
  unfold checkPayload
  by_cases h : s.rem < len
  · exact .inl ⟨h, if_pos h⟩
  · exact .inr ⟨by omega, if_neg h⟩

theorem checkPayload_of_lt {len : Nat} {s : State} (rest : Nat → Result) (h : s.rem < len) :
    checkPayload len s rest = .next (s.raise .truncatedPayload) := if_pos h

theorem checkPayload_of_le {len : Nat} {s : State} (rest : Nat → Result) (h : len ≤ s.rem) :
    checkPayload len s rest = rest (s.cursor + 2) := if_neg (by omega)

/-- A payload byte that the truncation check has admitted lies inside the valid bytes. -/
theorem State.payload_le_len {s : State} {len : Nat} (hpos : 0 < len) (h : len ≤ s.rem) :
    s.cursor + 2 + len ≤ s.len := by
  unfold State.rem State.rem0 at h; omega

/-! ## The four parsers: a wrong size is rejected, the right size in bounds is accepted -/

theorem parseAcknackTc_of_ne {len : Nat} (p : Nat) (s : State) (h : len ≠ 2) :
    parseAcknackTc len p s = .ok .rejected := if_neg h

theorem parseAcknackTc_of_le {p : Nat} {s : State} (h : p + 2 ≤ s.len) :
    parseAcknackTc 2 p s = .ok (.accepted (s.writeRecord fun r =>
      { r with
        isNack := isNackOf (s.buf.read (p + 1) ++ s.buf.read p)
        timeCorrection := timeCorrectionOf (s.buf.read (p + 1) ++ s.buf.read p) })) := by
  simp only [parseAcknackTc, lenAcknackTc, if_true, memRead_of_le h, ← Memory.ofNat_littleEndian_two]
  rfl

theorem parseSync_of_ne {len : Nat} (p : Nat) (s : State) (h : len ≠ 6) :
    parseSync len p s = .ok .rejected := if_neg h

theorem parseSync_of_le {p : Nat} {s : State} (h : p + 6 ≤ s.len) :
    parseSync 6 p s = .ok (.accepted (s.writeRecord fun r =>
      { r with
        asnLs4b := s.buf.read (p + 3) ++ s.buf.read (p + 2) ++ s.buf.read (p + 1) ++ s.buf.read p
        asnMs1b := s.buf.read (p + 4)
        joinPriority := s.buf.read (p + 5) })) := by
  rw [← Memory.ofNat_littleEndian_four, ← Memory.ofNat_littleEndian_one s.buf (p + 4),
    ← Memory.ofNat_littleEndian_one s.buf (p + 5)]
  simp only [parseSync, lenSync, if_true, memRead_of_le (show p + 4 ≤ s.len by omega),
    memRead_of_le (show p + 4 + 1 ≤ s.len by omega), memRead_of_le (show p + 5 + 1 ≤ s.len by omega)]
  rfl

theorem parseTimeslot_of_ne {len : Nat} (p : Nat) (s : State) (h : len ≠ 1) :
    parseTimeslot len p s = .ok .rejected := if_neg h

theorem parseTimeslot_of_le {p : Nat} {s : State} (h : p + 1 ≤ s.len) :
    parseTimeslot 1 p s = .ok (.accepted (s.writeRecord fun r => { r with tschTimeslotId := s.buf.read p })) := by
  simp only [parseTimeslot, lenTimeslot, if_true, memRead_of_le h, ← Memory.ofNat_littleEndian_one]
  rfl

theorem parseChseq_of_ne {len : Nat} (p : Nat) (s : State) (h : len ≠ 1) :
    parseChseq len p s = .ok .rejected := if_neg h

theorem parseChseq_of_le {p : Nat} {s : State} (h : p + 1 ≤ s.len) :
    parseChseq 1 p s =
      .ok (.accepted (s.writeRecord fun r => { r with channelHoppingSequenceId := s.buf.read p })) := by
  simp only [parseChseq, lenChseq, if_true, memRead_of_le h, ← Memory.ofNat_littleEndian_one]
  rfl

/-! ## The walker's use of a verdict -/

@[simp] theorem onVerdict_rejected (s : State) (rest : State → State) :
    onVerdict (.ok .rejected) s rest = .next (s.raise .invalidLength) := rfl

@[simp] theorem onVerdict_accepted (s s' : State) (rest : State → State) :
    onVerdict (.ok (.accepted s')) s rest = .next (rest s') := rfl

/-- What a recognised IE can do: raise one of the two failures with nothing written, or write the record under the
guard of `DISCARD` and go on; it never stops. -/
theorem checked_parse_cases {size : Nat} (hpos : 0 < size) (parse : Nat → Nat → State → Except Fault Verdict)
    (f : State → Nat → Record → Record)
    (hne : ∀ len p s, len ≠ size → parse len p s = .ok .rejected)
    (hle : ∀ p s, p + size ≤ s.len → parse size p s = .ok (.accepted (s.writeRecord (f s p))))
    (len : Nat) (s : State) (rest : Nat → State → State) :
    (s.rem < len ∧ checkPayload len s (fun p => onVerdict (parse len p s) s (rest p)) =
      .next (s.raise .truncatedPayload)) ∨
    (len ≤ s.rem ∧ len ≠ size ∧ checkPayload len s (fun p => onVerdict (parse len p s) s (rest p)) =
      .next (s.raise .invalidLength)) ∨
    (len ≤ s.rem ∧ len = size ∧ checkPayload len s (fun p => onVerdict (parse len p s) s (rest p)) =
      .next (rest (s.cursor + 2) (s.writeRecord (f s (s.cursor + 2))))) := by
  rcases checkPayload_cases len s (fun p => onVerdict (parse len p s) s (rest p)) with ⟨h, e⟩ | ⟨h, e⟩
  · exact .inl ⟨h, e⟩
  · by_cases hl : len = size
    · subst hl
      refine .inr (.inr ⟨h, rfl, ?_⟩)
      rw [e, hle _ _ (State.payload_le_len hpos h), onVerdict_accepted]
    · refine .inr (.inl ⟨h, hl, ?_⟩)
      rw [e, hne _ _ _ hl, onVerdict_rejected]

/-! ## The nested tail -/

/-- What the nested tail can do: overrun, close the group and the parse, or leave the rest of the budget. -/
theorem State.nestedTail_cases (len p : Nat) (s : State) :
    (s.mlmeRem.toNat < 2 + len ∧ s.nestedTail len p = s.raise .overrunNestedGroup) ∨
    (s.mlmeRem.toNat = 2 + len ∧
      s.nestedTail len p = State.finish .groupDone (p + len) { s with mlmeRem := 0 }) ∨
    (2 + len < s.mlmeRem.toNat ∧
      s.nestedTail len p =
        State.advance (p + len) { s with mlmeRem := BitVec.ofNat 11 (s.mlmeRem.toNat - (2 + len)) }) := by
  unfold State.nestedTail
  by_cases h1 : s.mlmeRem.toNat < 2 + len
  · exact .inl ⟨h1, if_pos h1⟩
  · by_cases h2 : s.mlmeRem.toNat = 2 + len
    · exact .inr (.inl ⟨h2, by rw [if_neg h1, if_pos h2]⟩)
    · exact .inr (.inr ⟨by omega, by rw [if_neg h1, if_neg h2]⟩)

@[simp] theorem State.nestedTail_buf (len p : Nat) (s : State) : (s.nestedTail len p).buf = s.buf := by
  rcases State.nestedTail_cases len p s with ⟨-, e⟩ | ⟨-, e⟩ | ⟨-, e⟩ <;> rw [e] <;> rfl

@[simp] theorem State.nestedTail_len (len p : Nat) (s : State) : (s.nestedTail len p).len = s.len := by
  rcases State.nestedTail_cases len p s with ⟨-, e⟩ | ⟨-, e⟩ | ⟨-, e⟩ <;> rw [e] <;> rfl

@[simp] theorem State.nestedTail_discard (len p : Nat) (s : State) : (s.nestedTail len p).discard = s.discard := by
  rcases State.nestedTail_cases len p s with ⟨-, e⟩ | ⟨-, e⟩ | ⟨-, e⟩ <;> rw [e] <;> rfl

@[simp] theorem State.nestedTail_record (len p : Nat) (s : State) : (s.nestedTail len p).record = s.record := by
  rcases State.nestedTail_cases len p s with ⟨-, e⟩ | ⟨-, e⟩ | ⟨-, e⟩ <;> rw [e] <;> rfl

@[simp] theorem State.nestedTail_turns (len p : Nat) (s : State) : (s.nestedTail len p).turns = s.turns := by
  rcases State.nestedTail_cases len p s with ⟨-, e⟩ | ⟨-, e⟩ | ⟨-, e⟩ <;> rw [e] <;> rfl

@[simp] theorem State.nestedTail_replies (len p : Nat) (s : State) : (s.nestedTail len p).replies = s.replies := by
  rcases State.nestedTail_cases len p s with ⟨-, e⟩ | ⟨-, e⟩ | ⟨-, e⟩ <;> rw [e] <;> rfl

/-- The budget left in the group fits its register. -/
theorem State.budget_left_toNat (s : State) (n : Nat) :
    (BitVec.ofNat 11 (s.mlmeRem.toNat - n)).toNat = s.mlmeRem.toNat - n := by
  rw [BitVec.toNat_ofNat, Nat.mod_eq_of_lt (lt_of_le_of_lt (Nat.sub_le _ _) s.mlmeRem.isLt)]

/-- The `CTRL` write of a host value: bit 0 is the command, bit 1 `DISCARD`, and the bits above are not looked at. -/
theorem decodeCtrl_ofNat (v : Nat) :
    decodeCtrl (BitVec.ofNat 2 v) = if v.testBit 0 then .start (v.testBit 1) else .setDiscard (v.testBit 1) := by
  have bit (i : Nat) (hi : i < 2) : (BitVec.ofNat 2 v).getLsbD i = v.testBit i := by
    rw [BitVec.getLsbD, BitVec.toNat_ofNat, Nat.testBit_mod_two_pow, decide_eq_true hi, Bool.true_and]
  rw [decodeCtrl, bit 0 (by decide), bit 1 (by decide)]

end Sys2Proof.Machine
end

