-- ==== Sys2Proof/Laws/Exec.lean ====
section
/-! SUPPORT. What `exec` can do, said once for all IEs: an IE is truncated, has a wrong length, or has its effect. -/

namespace Sys2Proof.Machine

/-- What an accepted IE writes to the result record, from the bytes after its descriptor. -/
def recordWrite (i : Instr) (s : State) (r : Record) : Record :=
  match i with
  | .hieAcknackTc _ =>
    { r with
      isNack := isNackOf (s.byteAt 3 ++ s.byteAt 2)
      timeCorrection := timeCorrectionOf (s.byteAt 3 ++ s.byteAt 2) }
  | .subsSync _ =>
    { r with
      asnLs4b := s.byteAt 5 ++ s.byteAt 4 ++ s.byteAt 3 ++ s.byteAt 2
      asnMs1b := s.byteAt 6
      joinPriority := s.byteAt 7 }
  | .subsTimeslot _ => { r with tschTimeslotId := s.byteAt 2 }
  | .sublChseq _ => { r with channelHoppingSequenceId := s.byteAt 2 }
  | _ => r

/-- The effect of an IE that is neither truncated nor of a wrong length. -/
def effect (i : Instr) (s : State) : State :=
  match i with
  | .hieAcknackTc len => State.advance (s.cursor + 2 + len.toNat) (s.writeRecord (recordWrite i s))
  | .hieListTerm2 len => s.finish .listTerm (s.cursor + 2 + len.toNat)
  | .hieListTerm1 len => s.advance (s.cursor + 2 + len.toNat)
  | .hieOther _ len => s.advance (s.cursor + 2 + len.toNat)
  | .pieMlme len => State.advance (s.cursor + 2) { s with mlmeRem := len }
  | .pieOther _ len => s.advance (s.cursor + 2 + len.toNat)
  | .subsSync len => State.nestedTail len.toNat (s.cursor + 2) (s.writeRecord (recordWrite i s))
  | .subsTimeslot len => State.nestedTail len.toNat (s.cursor + 2) (s.writeRecord (recordWrite i s))
  | .subsSlotframeLink len => s.nestedTail len.toNat (s.cursor + 2)
  | .subsOther _ len => s.nestedTail len.toNat (s.cursor + 2)
  | .sublChseq len => State.nestedTail len.toNat (s.cursor + 2) (s.writeRecord (recordWrite i s))
  | .sublOther _ len => s.nestedTail len.toNat (s.cursor + 2)
  | .start discard => s.startParse discard
  | .setDiscard discard => if s.state = .run then s else { s with discard := discard }

/-- The three things an IE can do when it runs. -/
def IECases (i : Instr) (s : State) : Prop :=
  (s.rem < i.declaredLen ∧ exec i s = .next (s.raise .truncatedPayload)) ∨
  (i.declaredLen ≤ s.rem ∧ i.requiredLen ≠ none ∧ i.requiredLen ≠ some i.declaredLen ∧
    exec i s = .next (s.raise .invalidLength)) ∨
  (i.declaredLen ≤ s.rem ∧ (i.requiredLen = none ∨ i.requiredLen = some i.declaredLen) ∧
    exec i s = .next (effect i s))

/-- An IE without a parser of its own is truncated or has its effect. -/
theorem ieCases_of_unparsed {i : Instr} {s : State} (hr : i.requiredLen = none)
    (h : (s.rem < i.declaredLen ∧ exec i s = .next (s.raise .truncatedPayload)) ∨
      (i.declaredLen ≤ s.rem ∧ exec i s = .next (effect i s))) : IECases i s := by
  rcases h with h | ⟨hle, he⟩
  · exact .inl h
  · exact .inr (.inr ⟨hle, .inl hr, he⟩)

/-- An IE with a parser is truncated, of a wrong length, or has its effect. -/
theorem ieCases_of_parsed {i : Instr} {s : State} {size : Nat} (hr : i.requiredLen = some size)
    (h : (s.rem < i.declaredLen ∧ exec i s = .next (s.raise .truncatedPayload)) ∨
      (i.declaredLen ≤ s.rem ∧ i.declaredLen ≠ size ∧ exec i s = .next (s.raise .invalidLength)) ∨
      (i.declaredLen ≤ s.rem ∧ i.declaredLen = size ∧ exec i s = .next (effect i s))) : IECases i s := by
  rcases h with h | ⟨hle, hne, he⟩ | ⟨hle, heq, he⟩
  · exact .inl h
  · refine .inr (.inl ⟨hle, by simp [hr], ?_, he⟩)
    rw [hr]
    exact fun h => hne (Option.some.inj h).symm
  · exact .inr (.inr ⟨hle, .inr (by rw [hr, heq]), he⟩)

/-- Every IE, in every state, does one of the three. -/
theorem exec_ieCases (i : Instr) (s : State) (hi : i.isIE = true) : IECases i s := by
  cases i with
  | hieAcknackTc len =>
    exact ieCases_of_parsed rfl (checked_parse_cases (by decide) parseAcknackTc
      (fun s p r => { r with
        isNack := isNackOf (s.buf.read (p + 1) ++ s.buf.read p)
        timeCorrection := timeCorrectionOf (s.buf.read (p + 1) ++ s.buf.read p) })
      (fun _ => parseAcknackTc_of_ne) (fun _ _ => parseAcknackTc_of_le) len.toNat s
      (fun p => State.advance (p + len.toNat)))
  | hieListTerm2 len =>
    exact ieCases_of_unparsed rfl (checkPayload_cases len.toNat s (fun p => .next (s.finish .listTerm (p + len.toNat))))
  | hieListTerm1 len =>
    exact ieCases_of_unparsed rfl (checkPayload_cases len.toNat s (fun p => .next (s.advance (p + len.toNat))))
  | hieOther id len =>
    exact ieCases_of_unparsed rfl (checkPayload_cases len.toNat s (fun p => .next (s.advance (p + len.toNat))))
  | pieMlme len =>
    exact ieCases_of_unparsed rfl (checkPayload_cases len.toNat s (fun p => .next (State.advance p { s with mlmeRem := len })))
  | pieOther id len =>
    exact ieCases_of_unparsed rfl (checkPayload_cases len.toNat s (fun p => .next (s.advance (p + len.toNat))))
  | subsSync len =>
    exact ieCases_of_parsed rfl (checked_parse_cases (by decide) parseSync
      (fun s p r => { r with
        asnLs4b := s.buf.read (p + 3) ++ s.buf.read (p + 2) ++ s.buf.read (p + 1) ++ s.buf.read p
        asnMs1b := s.buf.read (p + 4)
        joinPriority := s.buf.read (p + 5) })
      (fun _ => parseSync_of_ne) (fun _ _ => parseSync_of_le) len.toNat s (State.nestedTail len.toNat))
  | subsTimeslot len =>
    exact ieCases_of_parsed rfl (checked_parse_cases (by decide) parseTimeslot
      (fun s p r => { r with tschTimeslotId := s.buf.read p })
      (fun _ => parseTimeslot_of_ne) (fun _ _ => parseTimeslot_of_le) len.toNat s (State.nestedTail len.toNat))
  | subsSlotframeLink len =>
    exact ieCases_of_unparsed rfl (checkPayload_cases len.toNat s (fun p => .next (s.nestedTail len.toNat p)))
  | subsOther id len =>
    exact ieCases_of_unparsed rfl (checkPayload_cases len.toNat s (fun p => .next (s.nestedTail len.toNat p)))
  | sublChseq len =>
    exact ieCases_of_parsed rfl (checked_parse_cases (by decide) parseChseq
      (fun s p r => { r with channelHoppingSequenceId := s.buf.read p })
      (fun _ => parseChseq_of_ne) (fun _ _ => parseChseq_of_le) len.toNat s (State.nestedTail len.toNat))
  | sublOther id len =>
    exact ieCases_of_unparsed rfl (checkPayload_cases len.toNat s (fun p => .next (s.nestedTail len.toNat p)))
  | start discard => cases hi
  | setDiscard discard => cases hi

/-- The two writes of `CTRL` always have their effect. -/
theorem exec_ctrl (i : Instr) (s : State) (hi : i.isIE = false) : exec i s = .next (effect i s) := by
  cases i with
  | start discard => rfl
  | setDiscard discard => rfl
  | hieAcknackTc len => cases hi
  | hieListTerm2 len => cases hi
  | hieListTerm1 len => cases hi
  | hieOther id len => cases hi
  | pieMlme len => cases hi
  | pieOther id len => cases hi
  | subsSync len => cases hi
  | subsTimeslot len => cases hi
  | subsSlotframeLink len => cases hi
  | subsOther id len => cases hi
  | sublChseq len => cases hi
  | sublOther id len => cases hi

/-! ## The parser's step -/

/-- What the parser's step can do, in the order of 40_walker.md R90. -/
theorem parserStep_cases (p : Ids) (s : State) :
    (s.state ≠ .run ∧ parserStep p s = .next s) ∨
    (s.state = .run ∧ s.rem0 = 0 ∧ parserStep p s = .next (s.finish .exhausted s.cursor)) ∨
    (s.state = .run ∧ s.rem0 = 1 ∧ parserStep p s = .next (s.raise .truncatedDescriptor)) ∨
    (s.state = .run ∧ s.bytesLeft 2 ∧ parserStep p s = exec (decodeDescriptor p s.mode s.descriptor) s) := by
  unfold parserStep
  by_cases hr : s.state = .run
  · rw [if_neg (by simpa using hr)]
    by_cases h0 : s.rem0 = 0
    · exact .inr (.inl ⟨hr, h0, if_pos h0⟩)
    · rw [if_neg h0]
      by_cases h1 : s.rem0 < 2
      · exact .inr (.inr (.inl ⟨hr, by omega, if_pos h1⟩))
      · have hle : s.cursor + 2 ≤ s.len := by unfold State.rem0 at h1; omega
        refine .inr (.inr (.inr ⟨hr, hle, ?_⟩))
        rw [if_neg h1, memRead_of_le hle]
        show exec (decodeDescriptor p s.mode (BitVec.ofNat 16 (s.buf.littleEndian s.cursor 2))) s = _
        rw [Memory.ofNat_littleEndian_two]
        rfl
  · exact .inl ⟨hr, if_pos hr⟩

end Sys2Proof.Machine
end

