-- ==== Sys2Proof/Laws/PerInstr.lean ====
section
/-! SUPPORT. Statements made per instruction. Family `RowWord`: the word of every well-formed instruction is, by the opcode
table as it is printed (spec/opcode_table.json: mode, fixed bits, priority), a word of that instruction's own row. -/

namespace Sys2Proof.Laws.RowWord

/-- A row of spec/opcode_table.json: its mnemonic, its mode (none for the host's `CTRL` writes), and its fixed bits, which
are the bits from `lo` up for a descriptor and bit 0 for a `CTRL` value. -/
structure Row where
  mnemonic : String
  mode : Option Mode
  lo : Nat
  value : Nat
deriving DecidableEq, Repr

/-- The table, rows of priority 1 before those of priority 2. -/
def table : List Row :=
  [⟨"HIE.ACKNACK_TC", some .notNested, 7, 30⟩, ⟨"HIE.LIST_TERM2", some .notNested, 7, 127⟩,
   ⟨"HIE.LIST_TERM1", some .notNested, 7, 126⟩, ⟨"PIE.MLME", some .notNested, 11, 17⟩,
   ⟨"SUBS.SYNC", some .nested, 8, 26⟩, ⟨"SUBS.TIMESLOT", some .nested, 8, 28⟩,
   ⟨"SUBS.SLOTFRAME_LINK", some .nested, 8, 27⟩, ⟨"SUBL.CHSEQ", some .nested, 11, 25⟩,
   ⟨"START", none, 0, 1⟩, ⟨"SET_DISCARD", none, 0, 0⟩,
   ⟨"HIE.OTHER", some .notNested, 15, 0⟩, ⟨"PIE.OTHER", some .notNested, 15, 1⟩,
   ⟨"SUBS.OTHER", some .nested, 15, 0⟩, ⟨"SUBL.OTHER", some .nested, 15, 1⟩]

/-- Whether a row's mode and fixed bits are those of a word. -/
def Row.fits (r : Row) : Code → Bool
  | .descriptor m d => r.mode == some m && d.toNat / 2 ^ r.lo == r.value
  | .ctrlWrite v => r.mode == none && v.toNat % 2 == r.value

/-- The row the table gives a word: the first that fits, by priority. -/
def rowOf (c : Code) : Option String := (table.find? (·.fits c)).map (·.mnemonic)

/-- The mnemonic of an instruction. -/
def mnemonic : Instr → String
  | .hieAcknackTc _ => "HIE.ACKNACK_TC"
  | .hieListTerm2 _ => "HIE.LIST_TERM2"
  | .hieListTerm1 _ => "HIE.LIST_TERM1"
  | .hieOther _ _ => "HIE.OTHER"
  | .pieMlme _ => "PIE.MLME"
  | .pieOther _ _ => "PIE.OTHER"
  | .subsSync _ => "SUBS.SYNC"
  | .subsTimeslot _ => "SUBS.TIMESLOT"
  | .subsSlotframeLink _ => "SUBS.SLOTFRAME_LINK"
  | .subsOther _ _ => "SUBS.OTHER"
  | .sublChseq _ => "SUBL.CHSEQ"
  | .sublOther _ _ => "SUBL.OTHER"
  | .start _ => "START"
  | .setDiscard _ => "SET_DISCARD"

/-- The table gives the word of a well-formed instruction to the row of that instruction. -/
def Statement (i : Instr) : Prop := i.wf defaultIds = true → rowOf (encode defaultIds i) = some (mnemonic i)

/-- The value of a packed header descriptor (R66); the three after it are the other layouts. -/
theorem packHdr_toNat (id : BitVec 8) (len : BitVec 7) : (packHdr id len).toNat = 128 * id.toNat + len.toNat := by
  have h := BitVec.toNat_append (0#1 ++ id) len
  have h1 := BitVec.toNat_append 0#1 id
  refine h.trans ?_
  rw [Nat.shiftLeft_eq, mul_comm, ← Nat.two_pow_add_eq_or_of_lt len.isLt, h1]
  simp

theorem packPld_toNat (id : BitVec 4) (len : BitVec 11) :
    (packPld id len).toNat = 32768 + 2048 * id.toNat + len.toNat := by
  have h := BitVec.toNat_append (1#1 ++ id) len
  have h1 := BitVec.toNat_append 1#1 id
  refine h.trans ?_
  rw [Nat.shiftLeft_eq, mul_comm, ← Nat.two_pow_add_eq_or_of_lt len.isLt, h1, Nat.shiftLeft_eq, mul_comm _ (2 ^ 4),
    ← Nat.two_pow_add_eq_or_of_lt id.isLt]
  simp; omega

theorem packSubs_toNat (id : BitVec 7) (len : BitVec 8) : (packSubs id len).toNat = 256 * id.toNat + len.toNat := by
  have h := BitVec.toNat_append (0#1 ++ id) len
  have h1 := BitVec.toNat_append 0#1 id
  refine h.trans ?_
  rw [Nat.shiftLeft_eq, mul_comm, ← Nat.two_pow_add_eq_or_of_lt len.isLt, h1]
  simp

theorem packSubl_toNat (id : BitVec 4) (len : BitVec 11) :
    (packSubl id len).toNat = 32768 + 2048 * id.toNat + len.toNat := packPld_toNat id len

/-- The fixed bits that the rows of the header layout look at. -/
theorem header_bits (id : BitVec 8) (len : BitVec 7) :
    (packHdr id len).toNat / 128 = id.toNat ∧ (packHdr id len).toNat / 32768 = 0 ∧
      (packHdr id len).toNat / 2048 ≠ 17 := by
  have h := packHdr_toNat id len
  have h1 := id.isLt
  have h2 := len.isLt
  omega

/-- The fixed bits that the rows of the payload layout look at. -/
theorem payload_bits (id : BitVec 4) (len : BitVec 11) :
    (packPld id len).toNat / 2048 = 16 + id.toNat ∧ (packPld id len).toNat / 32768 = 1 ∧
      255 < (packPld id len).toNat / 128 := by
  have h := packPld_toNat id len
  have h1 := id.isLt
  have h2 := len.isLt
  omega

/-- The fixed bits that the rows of the short sub-IE layout look at. -/
theorem short_bits (id : BitVec 7) (len : BitVec 8) :
    (packSubs id len).toNat / 256 = id.toNat ∧ (packSubs id len).toNat / 32768 = 0 ∧
      (packSubs id len).toNat / 2048 ≠ 25 := by
  have h := packSubs_toNat id len
  have h1 := id.isLt
  have h2 := len.isLt
  omega

/-- The fixed bits that the rows of the long sub-IE layout look at. -/
theorem long_bits (id : BitVec 4) (len : BitVec 11) :
    (packSubl id len).toNat / 2048 = 16 + id.toNat ∧ (packSubl id len).toNat / 32768 = 1 ∧
      127 < (packSubl id len).toNat / 256 := by
  have h := packSubl_toNat id len
  have h1 := id.isLt
  have h2 := len.isLt
  omega

theorem hieAcknackTc (len : BitVec 7) : Statement (.hieAcknackTc len) := fun _ => by
  have h := header_bits 0x1e#8 len
  simp [rowOf, table, Row.fits, encode, defaultIds, mnemonic, h]

theorem hieListTerm2 (len : BitVec 7) : Statement (.hieListTerm2 len) := fun _ => by
  have h := header_bits 0x7f#8 len
  simp [rowOf, table, Row.fits, encode, Config.hdrIdListTerm2, mnemonic, h]

theorem hieListTerm1 (len : BitVec 7) : Statement (.hieListTerm1 len) := fun _ => by
  have h := header_bits 0x7e#8 len
  simp [rowOf, table, Row.fits, encode, Config.hdrIdListTerm1, mnemonic, h]

theorem hieOther (id : BitVec 8) (len : BitVec 7) : Statement (.hieOther id len) := fun hwf => by
  have h := header_bits id len
  simp only [Instr.wf, Ids.namesHeader, defaultIds, Config.hdrIdListTerm2, Config.hdrIdListTerm1, Bool.not_eq_true',
    Bool.or_eq_false_iff, beq_eq_false_iff_ne, ne_eq, BitVec.toNat_eq, BitVec.reduceToNat] at hwf
  simp [rowOf, table, Row.fits, encode, mnemonic, h, hwf]

theorem pieMlme (len : BitVec 11) : Statement (.pieMlme len) := fun _ => by
  have h := payload_bits 1#4 len
  have h1 : (packPld 1#4 len).toNat / 128 ≠ 30 ∧ (packPld 1#4 len).toNat / 128 ≠ 127 ∧
    (packPld 1#4 len).toNat / 128 ≠ 126 := by omega
  simp [rowOf, table, Row.fits, encode, Config.pldGidMlme, mnemonic, h, h1]

theorem pieOther (id : BitVec 4) (len : BitVec 11) : Statement (.pieOther id len) := fun hwf => by
  have h := payload_bits id len
  have h1 : (packPld id len).toNat / 128 ≠ 30 ∧ (packPld id len).toNat / 128 ≠ 127 ∧
    (packPld id len).toNat / 128 ≠ 126 := by omega
  simp only [Instr.wf, Config.pldGidMlme, bne_iff_ne, ne_eq, BitVec.toNat_eq, BitVec.reduceToNat] at hwf
  have h2 : 16 + id.toNat ≠ 17 := by omega
  simp [rowOf, table, Row.fits, encode, mnemonic, h, h1, h2]

theorem subsSync (len : BitVec 8) : Statement (.subsSync len) := fun _ => by
  have h := short_bits 0x1a#7 len
  simp [rowOf, table, Row.fits, encode, defaultIds, mnemonic, h]

theorem subsTimeslot (len : BitVec 8) : Statement (.subsTimeslot len) := fun _ => by
  have h := short_bits 0x1c#7 len
  simp [rowOf, table, Row.fits, encode, defaultIds, mnemonic, h]

theorem subsSlotframeLink (len : BitVec 8) : Statement (.subsSlotframeLink len) := fun _ => by
  have h := short_bits 0x1b#7 len
  simp [rowOf, table, Row.fits, encode, defaultIds, mnemonic, h]

theorem subsOther (id : BitVec 7) (len : BitVec 8) : Statement (.subsOther id len) := fun hwf => by
  have h := short_bits id len
  simp only [Instr.wf, Ids.namesShort, defaultIds, Bool.not_eq_true', Bool.or_eq_false_iff, beq_eq_false_iff_ne, ne_eq,
    BitVec.toNat_eq, BitVec.reduceToNat] at hwf
  simp [rowOf, table, Row.fits, encode, mnemonic, h, hwf]

theorem sublChseq (len : BitVec 11) : Statement (.sublChseq len) := fun _ => by
  have h := long_bits 9#4 len
  have h1 : (packSubl 9#4 len).toNat / 256 ≠ 26 ∧ (packSubl 9#4 len).toNat / 256 ≠ 28 ∧
    (packSubl 9#4 len).toNat / 256 ≠ 27 := by omega
  simp [rowOf, table, Row.fits, encode, defaultIds, mnemonic, h, h1]

theorem sublOther (id : BitVec 4) (len : BitVec 11) : Statement (.sublOther id len) := fun hwf => by
  have h := long_bits id len
  have h1 : (packSubl id len).toNat / 256 ≠ 26 ∧ (packSubl id len).toNat / 256 ≠ 28 ∧
    (packSubl id len).toNat / 256 ≠ 27 := by omega
  simp only [Instr.wf, defaultIds, bne_iff_ne, ne_eq, BitVec.toNat_eq, BitVec.reduceToNat] at hwf
  have h2 : 16 + id.toNat ≠ 25 := by omega
  simp [rowOf, table, Row.fits, encode, mnemonic, h, h1, h2]

theorem start (discard : Bool) : Statement (.start discard) := fun _ => by
  cases discard <;> decide

theorem setDiscard (discard : Bool) : Statement (.setDiscard discard) := fun _ => by
  cases discard <;> decide

end Sys2Proof.Laws.RowWord
end

