-- ==== Sys2Proof/Tests/Slice0.lean ====
section
/-! SUPPORT. The model's own tests: what WellFormed refuses, one written-out word for every constructor, single steps
whose results the spec's vectors give (95_test_vectors.md), and a witness for the hypotheses of every statement. -/

namespace Sys2Proof.Tests

open Sys2Proof.Machine

/-! ## Helpers -/

/-- A buffer holding these bytes from offset 0. -/
def bufOf (bytes : List Byte) : Memory := Memory.ofCells defaultParams.bufCap ((List.range bytes.length).zip bytes)

/-- A running parse of these bytes. -/
def running (bytes : List Byte) (cursor mlmeRem : Nat) : State :=
  { State.reset with
    buf := bufOf bytes
    len := bytes.length
    state := .run
    cursor := cursor
    mlmeRem := BitVec.ofNat 11 mlmeRem }

/-- A state with these turns to come. -/
def withTurns (s : State) (turns : List Turn) : State := { s with turns := turns }

/-- A parse that ended successfully after `n` of its `n` bytes. -/
def finished (bytes : List Byte) : State :=
  { running bytes bytes.length 0 with
    state := .done
    endCause := some .exhausted
    consumed := bytes.length }

/-- A parse that failed at offset 0. -/
def failed (bytes : List Byte) : State :=
  { running bytes 0 0 with state := .error, err := some .truncatedDescriptor }

/-- The result is a next state of which the check holds. -/
def nextIs (r : Result) (check : State → Bool) : Bool :=
  match r with
  | .next s => check s
  | .fault _ => false
  | .refused _ => false

/-! ## WellFormed: one ill-formed term for each check -/

theorem test_wf_refuses_named_header_ids :
    (Instr.hieOther 0x1e 2).wf defaultIds = false ∧ (Instr.hieOther 0x7f 0).wf defaultIds = false ∧
      (Instr.hieOther 0x7e 0).wf defaultIds = false := by decide

theorem test_wf_refuses_mlme_as_other : (Instr.pieOther 1 8).wf defaultIds = false := by decide

theorem test_wf_refuses_named_short_ids :
    (Instr.subsOther 0x1a 6).wf defaultIds = false ∧ (Instr.subsOther 0x1c 1).wf defaultIds = false ∧
      (Instr.subsOther 0x1b 3).wf defaultIds = false := by decide

theorem test_wf_refuses_chseq_as_other : (Instr.sublOther 9 1).wf defaultIds = false := by decide

/-! ## Decode: a word written out from 30_encoding.md R60 for every constructor (type bit, id, len) -/

theorem test_decode_header_words :
    decode defaultIds (.descriptor .notNested 0b0000111100000010) = .hieAcknackTc 2 ∧
    decode defaultIds (.descriptor .notNested 0b0011111110000010) = .hieListTerm2 2 ∧
    decode defaultIds (.descriptor .notNested 0b0011111100000000) = .hieListTerm1 0 ∧
    decode defaultIds (.descriptor .notNested 0b0001000100000011) = .hieOther 0x22 3 := by decide

theorem test_decode_payload_words :
    decode defaultIds (.descriptor .notNested 0b1000100000001000) = .pieMlme 8 ∧
    decode defaultIds (.descriptor .notNested 0b1001000000000100) = .pieOther 2 4 ∧
    decode defaultIds (.descriptor .notNested 0b1111111111111111) = .pieOther 15 2047 := by decide

theorem test_decode_short_words :
    decode defaultIds (.descriptor .nested 0b0001101000000110) = .subsSync 6 ∧
    decode defaultIds (.descriptor .nested 0b0001110000000001) = .subsTimeslot 1 ∧
    decode defaultIds (.descriptor .nested 0b0001101100000011) = .subsSlotframeLink 3 ∧
    decode defaultIds (.descriptor .nested 0b0011001100000000) = .subsOther 0x33 0 := by decide

theorem test_decode_long_words :
    decode defaultIds (.descriptor .nested 0b1100100000000001) = .sublChseq 1 ∧
    decode defaultIds (.descriptor .nested 0b1000100000000011) = .sublOther 1 3 ∧
    decode defaultIds (.descriptor .nested 0b1110111011101110) = .sublOther 0xd 1774 := by decide

theorem test_decode_ctrl_values :
    decode defaultIds (.ctrlWrite 0b01) = .start false ∧ decode defaultIds (.ctrlWrite 0b11) = .start true ∧
    decode defaultIds (.ctrlWrite 0b00) = .setDiscard false ∧
    decode defaultIds (.ctrlWrite 0b10) = .setDiscard true := by decide

theorem test_decode_same_bytes_by_mode :
    decodeBytes defaultIds .notNested [0x01, 0x1C] = .ok (.hieOther 0x38 1, []) ∧
    decodeBytes defaultIds .nested [0x01, 0x1C] = .ok (.subsTimeslot 1, []) ∧
    decodeBytes defaultIds .nested [0x80, 0x3F] = .ok (.subsOther 0x3f 0x80, []) := ⟨rfl, rfl, rfl⟩

theorem test_table_words :
    decodeTableWord 16 0x0F00 = some (.hieAcknackTc 0) ∧ decodeTableWord 16 0x1A00 = some (.subsSync 0) ∧
    decodeTableWord 16 0xC800 = some (.sublChseq 0) ∧ decodeTableWord 16 0x8800 = some (.pieMlme 0) ∧
    decodeTableWord 8 1 = some (.start false) ∧ decodeTableWord 8 0 = some (.setDiscard false) := by decide

/-! ## Single steps, results from 95_test_vectors.md -/

/-- Vector V4, step 1. -/
theorem test_acknack_writes_its_fields :
    nextIs (step (running [0x02, 0x0F, 0xFB, 0x8F, 0x80, 0x3F] 0 0)) (fun t =>
      t.record.isNack && t.record.timeCorrection == 0xFFFB && t.cursor == 4 && t.state == .run) = true := by decide

/-- Vector V7. -/
theorem test_acknack_wrong_length :
    nextIs (step (running [0x03, 0x0F, 0xFB, 0x8F, 0x00] 0 0)) (fun t =>
      t.err == some .invalidLength && t.state == .error && t.cursor == 0 && t.record == State.reset.record) = true := by
  decide

/-- Vectors V17a and V17b. -/
theorem test_list_term2_counts_its_payload :
    nextIs (step (running [0x82, 0x3F, 0xAA, 0xBB] 0 0)) (fun t =>
      t.state == .done && t.endCause == some .listTerm && t.consumed == 4 && t.cursor == 4) = true ∧
    nextIs (step (running [0x82, 0x3F, 0xAA] 0 0)) (fun t =>
      t.err == some .truncatedPayload && t.cursor == 0) = true := by decide

/-- Vector V16, step 1. -/
theorem test_list_term1_is_skipped :
    nextIs (step (running [0x00, 0x3F, 0x80, 0x3F] 0 0)) (fun t => t.state == .run && t.cursor == 2) = true := by decide

/-- Vector V8, step 1. -/
theorem test_unknown_header_is_skipped :
    nextIs (step (running [0x03, 0x11, 0xAA, 0xBB, 0xCC, 0x80, 0x3F] 0 0)) (fun t =>
      t.state == .run && t.cursor == 5) = true := by decide

/-- Vectors V5, step 1, and V13. -/
theorem test_mlme_opens_or_is_truncated :
    nextIs (step (running [0x08, 0x88, 0x06, 0x1A, 0x78, 0x56, 0x34, 0x12, 0x9A, 0x03] 0 0)) (fun t =>
      t.mlmeRem == 8 && t.cursor == 2 && t.state == .run) = true ∧
    nextIs (step (running [0x08, 0x88, 0x01, 0x1C, 0x05] 0 0)) (fun t =>
      t.err == some .truncatedPayload && t.cursor == 0 && t.mlmeRem == 0) = true := by decide

/-- Vector V14, step 1. -/
theorem test_empty_mlme_stays_not_nested :
    nextIs (step (running [0x00, 0x88, 0x80, 0x3F] 0 0)) (fun t =>
      t.mode == .notNested && t.cursor == 2 && t.state == .run) = true := by decide

/-- Vector V9, step 1. -/
theorem test_unknown_payload_is_skipped :
    nextIs (step (running [0x04, 0x90, 0x01, 0x02, 0x03, 0x04] 0 0)) (fun t => t.cursor == 6 && t.state == .run) =
      true := by decide

/-- Vector V5, step 2. -/
theorem test_sync_closes_its_group :
    nextIs (step (running [0x08, 0x88, 0x06, 0x1A, 0x78, 0x56, 0x34, 0x12, 0x9A, 0x03] 2 8)) (fun t =>
      t.record.asnLs4b == 0x12345678 && t.record.asnMs1b == 0x9A && t.record.joinPriority == 3 && t.mlmeRem == 0 &&
        t.consumed == 10 && t.statusWord == 0x42) = true := by decide

/-- Vector V10, step 2, and H4: the registers are written, then the overrun is raised. -/
theorem test_sync_overrun_after_the_write :
    nextIs (step (running [0x04, 0x88, 0x06, 0x1A, 0x78, 0x56, 0x34, 0x12, 0x9A, 0x03] 2 4)) (fun t =>
      t.record.asnLs4b == 0x12345678 && t.cursor == 2 && t.mlmeRem == 4 && t.statusWord == 0x93) = true := by decide

/-- Vector V21, step 2, and V27, step 2. -/
theorem test_timeslot :
    nextIs (step (running [0x03, 0x88, 0x01, 0x1C, 0x05, 0xFF] 2 3)) (fun t =>
      t.record.tschTimeslotId == 5 && t.consumed == 5 && t.endCause == some .groupDone) = true ∧
    nextIs (step (running [0x04, 0x88, 0x02, 0x1C, 0x05, 0x06] 2 4)) (fun t =>
      t.err == some .invalidLength && t.mlmeRem == 4 && t.cursor == 2) = true := by decide

/-- Vector V26, step 2. -/
theorem test_slotframe_link_is_skipped :
    nextIs (step (running [0x05, 0x88, 0x03, 0x1B, 0x01, 0x02, 0x03] 2 5)) (fun t =>
      t.state == .done && t.consumed == 7 && t.record == State.reset.record) = true := by decide

/-- Vector V23, steps 2 and 3. -/
theorem test_unknown_short_leaves_budget_then_lone_byte :
    nextIs (step (running [0x03, 0x88, 0x00, 0x33, 0xEE] 2 3)) (fun t => t.mlmeRem == 1 && t.cursor == 4) = true ∧
    nextIs (step (running [0x03, 0x88, 0x00, 0x33, 0xEE] 4 1)) (fun t =>
      t.err == some .truncatedDescriptor && t.cursor == 4 && t.mlmeRem == 1) = true := by decide

/-- Vector V35, step 2, and V24, step 2. -/
theorem test_chseq :
    nextIs (step (running [0x03, 0x88, 0x01, 0xC8, 0x07] 2 3)) (fun t =>
      t.record.channelHoppingSequenceId == 7 && t.state == .done && t.consumed == 5) = true ∧
    nextIs (step (running [0x04, 0x88, 0x02, 0xC8, 0x07, 0x08] 2 4)) (fun t =>
      t.err == some .invalidLength && t.record.channelHoppingSequenceId == 0) = true := by decide

/-- Vector V18, step 2: no container inside a group. -/
theorem test_nested_id_one_is_skipped :
    nextIs (step (running [0x05, 0x88, 0x03, 0x88, 0xAA, 0xBB, 0xCC] 2 5)) (fun t =>
      t.state == .done && t.consumed == 7 && t.mlmeRem == 0) = true := by decide

/-- Vector V19, step 2. -/
theorem test_discard_writes_no_register :
    nextIs (step { running [0x08, 0x88, 0x06, 0x1A, 0x78, 0x56, 0x34, 0x12, 0x9A, 0x03] 2 8 with discard := true })
      (fun t => t.record == State.reset.record && t.consumed == 10 && t.state == .done) = true := by decide

/-- Vectors H9 and H7 (its last write). -/
theorem test_start :
    nextIs (step (withTurns (failed [0x80]) [.host (.writeReg 0 1)])) (fun t =>
      t.state == .run && t.err == none && t.cursor == 0 && t.consumed == 0) = true ∧
    nextIs (step (withTurns (running [0x80, 0x3F] 0 0) [.host (.writeReg 0 3)])) (fun t =>
      t.state == .run && t.discard == false) = true := by decide

/-- 45_host_commands.md R152, `n = 0`. -/
theorem test_set_discard :
    nextIs (step (withTurns State.reset [.host (.writeReg 0 2)])) (fun t => t.discard && t.state == .idle) = true := by
  decide

/-- Vectors H1, H3 and H5. -/
theorem test_status_values :
    State.reset.statusWord = 0x00 ∧ (failed [0x80]).statusWord = 0x07 ∧ (finished []).statusWord = 0x62 := by decide

/-- Vector H8. -/
theorem test_read_only_and_reserved_registers :
    nextIs (step (withTurns (finished [0x00, 0x90]) [.host (.writeReg 3 9)])) (fun t => t.consumed == 2) = true ∧
    nextIs (step (withTurns (finished [0x00, 0x90]) [.host (.readReg 6)])) (fun t =>
      t.replies == [.reg 6 0]) = true := by decide

/-- 45_host_commands.md R152, R154 and 10_state.md R11 on a block with `LEN_W = 4`: `LEN` takes 4 bits, offset 14 exists
and offset 15 does not. -/
theorem test_other_len_width :
    nextIs (turnStep { ids := defaultIds, lenW := 4 } (withTurns State.reset [.host (.writeReg 2 21)]))
      (fun t => t.len == 5) = true ∧
    nextIs (turnStep { ids := defaultIds, lenW := 4 } (withTurns State.reset [.host (.writeBuf 14 7)]))
      (fun t => t.buf == [(14, 7)]) = true ∧
    nextIs (turnStep { ids := defaultIds, lenW := 4 } (withTurns State.reset [.host (.writeBuf 15 7)]))
      (fun t => t.buf == []) = true := by decide

/-! ## Witnesses: for every statement with hypotheses, states and operands that meet them, clause by clause -/

theorem witness_DecodeOfEncodeIsTheInstruction :
    defaultIds.valid ∧
      ([.hieAcknackTc 2, .hieListTerm2 127, .hieListTerm1 0, .hieOther 0xff 127, .pieMlme 2047, .pieOther 15 2047,
        .subsSync 6, .subsTimeslot 1, .subsSlotframeLink 255, .subsOther 0x7f 255, .sublChseq 1, .sublOther 1 2047,
        .start true, Instr.setDiscard false].all fun i => i.wf defaultIds) = true := by decide

theorem witness_EachRowStandsForItsDescriptors : defaultIds.valid := by decide

theorem witness_MemReadIsLittleEndian :
    3 + 1 ≤ (running [1, 2, 3, 4] 0 0).len ∧ 2 + 2 ≤ (running [1, 2, 3, 4] 0 0).len ∧
      0 + 4 ≤ (running [1, 2, 3, 4] 0 0).len := by decide

theorem witness_BuffersThatReadAlikeAreEqual :
    (bufOf [1, 0, 3]).wf defaultParams.bufCap = true ∧ (Memory.write [(0, 1)] 2 3).wf defaultParams.bufCap = true ∧
      ∀ a, a < defaultParams.bufCap → (bufOf [1, 0, 3]).read a = (Memory.write [(0, 1)] 2 3).read a :=
  ⟨by decide, by decide, fun _ _ => rfl⟩

theorem witness_HostBufferAccess :
    (bufOf [1, 2]).wf defaultParams.bufCap = true ∧ (running [1, 2] 0 0).state = .run ∧ (finished [1, 2]).state ≠ .run ∧
      4094 < defaultParams.bufCap ∧ defaultParams.bufCap ≤ 4095 ∧
      (withTurns (finished [1, 2]) [.host (.writeBuf 4094 7)]).turns = .host (.writeBuf 4094 7) :: [] ∧
      (withTurns (running [1, 2] 0 0) [.host (.readBuf 4095)]).turns = .host (.readBuf 4095) :: [] := by decide

/-- The clauses of the recognised header IE: truncated, wrong length, right length at the end of the buffer. -/
theorem witness_AckNackTimeCorrection :
    ((running [2, 0x0F, 1] 0 0).bytesLeft 2 ∧ ¬ (running [2, 0x0F, 1] 0 0).bytesLeft (2 + (2 : BitVec 7).toNat)) ∧
    ((running [3, 0x0F, 1, 2, 3] 0 0).bytesLeft (2 + (3 : BitVec 7).toNat) ∧ (3 : BitVec 7) ≠ 2) ∧
    (running [2, 0x0F, 1, 2] 0 0).bytesLeft 4 := by decide

theorem witness_ListTerminationEndsTheParse :
    ((running [0x82, 0x3F, 1] 0 0).bytesLeft 2 ∧
      ¬ (running [0x82, 0x3F, 1] 0 0).bytesLeft (2 + (2 : BitVec 7).toNat)) ∧
    (running [0x80, 0x3F] 0 0).bytesLeft (2 + (0 : BitVec 7).toNat) := by decide

theorem witness_UnrecognisedHeaderIEsAreSkipped :
    ((running [3, 0x11, 1, 2] 0 0).bytesLeft 2 ∧
      ¬ (running [3, 0x11, 1, 2] 0 0).bytesLeft (2 + (3 : BitVec 7).toNat)) ∧
    (running [3, 0x11, 1, 2, 3] 0 0).bytesLeft (2 + (3 : BitVec 7).toNat) := by decide

theorem witness_MlmeContainerOpensItsGroup :
    ((running [2, 0x88, 1] 0 0).bytesLeft 2 ∧ ¬ (running [2, 0x88, 1] 0 0).bytesLeft (2 + (2 : BitVec 11).toNat)) ∧
    (running [2, 0x88, 1, 2] 0 0).bytesLeft (2 + (2 : BitVec 11).toNat) ∧
    (running [1, 0x88, 1] 0 0).bytesLeft (2 + (1 : BitVec 11).toNat) ∧ (running [1, 0x88, 1] 0 0).state = .run ∧
    nextIs (exec (.pieMlme 1) (running [1, 0x88, 1] 0 0)) (fun t => t.mode == .nested) = true ∧
    nextIs (exec (.pieMlme 0) (running [0, 0x88] 0 0)) (fun t => t.mode == .notNested) = true := by decide

theorem witness_UnrecognisedPayloadIEsAreSkipped :
    ((running [2, 0x90, 1] 0 0).bytesLeft 2 ∧ ¬ (running [2, 0x90, 1] 0 0).bytesLeft (2 + (2 : BitVec 11).toNat)) ∧
    (running [2, 0x90, 1, 2] 0 0).bytesLeft (2 + (2 : BitVec 11).toNat) := by decide

/-- The clauses of a nested tail are met at the budget, one below and one above. -/
theorem witness_SynchronizationSubIE :
    ((running [6, 0x1A, 1] 0 8).bytesLeft 2 ∧ ¬ (running [6, 0x1A, 1] 0 8).bytesLeft (2 + (6 : BitVec 8).toNat)) ∧
    ((running [5, 0x1A, 1, 2, 3, 4, 5] 0 7).bytesLeft (2 + (5 : BitVec 8).toNat) ∧ (5 : BitVec 8) ≠ 6) ∧
    (running [6, 0x1A, 1, 2, 3, 4, 5, 6] 0 8).bytesLeft 8 ∧
    (running [6, 0x1A, 1, 2, 3, 4, 5, 6] 0 7).mlmeRem.toNat < 2 + 6 ∧
    (running [6, 0x1A, 1, 2, 3, 4, 5, 6] 0 8).mlmeRem.toNat = 2 + 6 ∧
    2 + 6 < (running [6, 0x1A, 1, 2, 3, 4, 5, 6, 7] 0 9).mlmeRem.toNat := by decide

theorem witness_TimeslotSubIE :
    ((running [1, 0x1C] 0 3).bytesLeft 2 ∧ ¬ (running [1, 0x1C] 0 3).bytesLeft (2 + (1 : BitVec 8).toNat)) ∧
    ((running [2, 0x1C, 1, 2] 0 4).bytesLeft (2 + (2 : BitVec 8).toNat) ∧ (2 : BitVec 8) ≠ 1) ∧
    (running [1, 0x1C, 5] 0 3).bytesLeft 3 ∧ (running [1, 0x1C, 5] 0 2).mlmeRem.toNat < 2 + 1 ∧
    (running [1, 0x1C, 5] 0 3).mlmeRem.toNat = 2 + 1 ∧ 2 + 1 < (running [1, 0x1C, 5, 6] 0 4).mlmeRem.toNat := by decide

theorem witness_SkippedShortSubIEs :
    ((running [1, 0x33] 0 3).bytesLeft 2 ∧ ¬ (running [1, 0x33] 0 3).bytesLeft (2 + (1 : BitVec 8).toNat)) ∧
    (running [1, 0x33, 5] 0 3).bytesLeft (2 + (1 : BitVec 8).toNat) ∧
    (running [1, 0x33, 5] 0 2).mlmeRem.toNat < 2 + (1 : BitVec 8).toNat ∧
    (running [1, 0x33, 5] 0 3).mlmeRem.toNat = 2 + (1 : BitVec 8).toNat ∧
    2 + (1 : BitVec 8).toNat < (running [1, 0x33, 5, 6] 0 4).mlmeRem.toNat := by decide

theorem witness_ChannelHoppingSubIE :
    ((running [1, 0xC8] 0 3).bytesLeft 2 ∧ ¬ (running [1, 0xC8] 0 3).bytesLeft (2 + (1 : BitVec 11).toNat)) ∧
    ((running [2, 0xC8, 1, 2] 0 4).bytesLeft (2 + (2 : BitVec 11).toNat) ∧ (2 : BitVec 11) ≠ 1) ∧
    (running [1, 0xC8, 5] 0 3).bytesLeft 3 ∧ (running [1, 0xC8, 5] 0 2).mlmeRem.toNat < 2 + 1 ∧
    (running [1, 0xC8, 5] 0 3).mlmeRem.toNat = 2 + 1 ∧ 2 + 1 < (running [1, 0xC8, 5, 6] 0 4).mlmeRem.toNat := by decide

theorem witness_SkippedLongSubIEs :
    ((running [1, 0x88] 0 3).bytesLeft 2 ∧ ¬ (running [1, 0x88] 0 3).bytesLeft (2 + (1 : BitVec 11).toNat)) ∧
    (running [1, 0x88, 5] 0 3).bytesLeft (2 + (1 : BitVec 11).toNat) ∧
    (running [1, 0x88, 5] 0 2).mlmeRem.toNat < 2 + (1 : BitVec 11).toNat ∧
    (running [1, 0x88, 5] 0 3).mlmeRem.toNat = 2 + (1 : BitVec 11).toNat ∧
    2 + (1 : BitVec 11).toNat < (running [1, 0x88, 5, 6] 0 4).mlmeRem.toNat := by decide

theorem witness_StartBeginsAParse :
    (3 : BitVec 2).getLsbD 0 = true ∧ (running [1] 0 0).state = .run ∧ (failed [1]).state ≠ .run ∧ State.reset.state ≠ .run ∧ State.reset.len = 0 := by
  decide

theorem witness_SetDiscardWritesDiscard : (running [1] 0 0).state = .run ∧ (finished [1]).state ≠ .run := by decide

/-- Each form of the frame answers a next state: one operand of each of the six. -/
theorem witness_TopLevelIEFrame :
    ([.hieAcknackTc 2, .hieListTerm2 2, .hieListTerm1 2, .hieOther 0 2, .pieMlme 2, Instr.pieOther 0 2].all fun i =>
      nextIs (exec i (running [2, 0x0F, 1, 2] 0 0)) fun _ => true) = true := by decide

theorem witness_SubIEFrame :
    ([.subsSync 6, .subsTimeslot 1, .subsSlotframeLink 1, .subsOther 0 1, .sublChseq 1, Instr.sublOther 1 1].all fun i =>
      nextIs (exec i (running [6, 0x1A, 1, 2, 3, 4, 5, 6] 0 8)) fun _ => true) = true := by decide

theorem witness_CtrlWriteFrame :
    nextIs (exec (.start true) (finished [1])) (fun t => t.state == .run) = true ∧
      nextIs (exec (.setDiscard true) (finished [1])) (fun t => t.discard) = true := by decide

theorem witness_EachResultRegisterHasOneWriter :
    nextIs (exec (.subsSync 6) (running [6, 0x1A, 1, 2, 3, 4, 5, 6] 0 8)) (fun t => t.record.joinPriority == 6) = true ∧
      nextIs (exec (.hieAcknackTc 2) (running [2, 0x0F, 1, 0x80] 0 0)) (fun t => t.record.isNack) = true := by decide

theorem witness_NoInstructionWritesBufferOrLen :
    nextIs (exec (.hieOther 0 1) (running [1, 0, 9] 0 0)) (fun t => t.cursor == 3) = true ∧
      (Instr.hieOther 0 1).isIE = true := by decide

theorem witness_DiscardKeepsTheRecord :
    (Instr.subsTimeslot 1).isIE = true ∧ ({ running [1, 0x1C, 5] 0 3 with discard := true } : State).discard = true ∧
      nextIs (exec (.subsTimeslot 1) { running [1, 0x1C, 5] 0 3 with discard := true }) (fun t => t.consumed == 3) =
        true := by decide

theorem witness_StepRunsTheDecodedInstruction :
    (running [0x80, 0x3F] 0 0).turns = [] ∧ (running [0x80, 0x3F] 0 0).state = .run ∧
      (running [0x80, 0x3F] 0 0).bytesLeft 2 ∧
      (withTurns (running [0x80, 0x3F] 0 0) [.parser]).turns = .parser :: [] ∧
      (withTurns State.reset [.host (.writeReg 0 1)]).turns = .host (.writeReg 0 1) :: [] := by decide

theorem witness_ParserIsDisabledOutsideRun :
    State.reset.state ≠ .run ∧ State.reset.turns = [] ∧ (withTurns State.reset [.parser]).turns = .parser :: [] := by
  decide

/-- The running states of the witnesses meet the invariant: not nested, nested, with one byte left, with none. -/
theorem running_inv :
    (running [2, 0x0F, 1, 2] 0 0).Inv defaultParams ∧ (running [1, 0x1C, 5] 0 3).Inv defaultParams ∧ (running [9] 0 1).Inv defaultParams ∧
      (running [9] 1 0).Inv defaultParams ∧ (running [0x80, 0x3F] 0 0).Inv defaultParams ∧ (running [2, 0x1C, 1, 2] 0 3).Inv defaultParams ∧
      (running [1, 0x1C, 5] 0 2).Inv defaultParams ∧ (running [3, 0x0F, 1, 2] 0 0).Inv defaultParams := by
  refine ⟨?_, ?_, ?_, ?_, ?_, ?_, ?_, ?_⟩ <;> constructor <;> decide

theorem witness_ExhaustionEndsTheParse :
    (running [9] 1 0).Inv defaultParams ∧ (running [9] 1 0).state = .run ∧ (running [9] 1 0).cursor = (running [9] 1 0).len ∧
      State.reset.state ≠ .run ∧ State.reset.len = 0 := ⟨running_inv.2.2.2.1, by decide⟩

theorem witness_LoneByteIsTruncatedDescriptor :
    (running [9] 0 1).Inv defaultParams ∧ (running [9] 0 1).state = .run ∧
      (running [9] 0 1).cursor + 1 = (running [9] 0 1).len ∧
      nextIs (parserStep defaultIds (running [9] 0 1)) (fun t => t.err == some .truncatedDescriptor) = true :=
  ⟨running_inv.2.2.1, by decide⟩

/-- Every branch of the fixed order, in its order: no byte, one byte, a payload one byte short (of a wrong length too), a
wrong length (over its budget too), a budget one byte short, and no failure at the exact budget. -/
theorem witness_FailuresAreReportedInTheFixedOrder :
    ((running [9] 1 0).Inv defaultParams ∧ (running [9] 0 1).Inv defaultParams ∧
      (running [3, 0x0F, 1, 2] 0 0).Inv defaultParams ∧ (running [2, 0x1C, 1, 2] 0 3).Inv defaultParams ∧
      (running [1, 0x1C, 5] 0 2).Inv defaultParams ∧ (running [1, 0x1C, 5] 0 3).Inv defaultParams) ∧
    ([(running [9] 1 0, none), (running [9] 0 1, some .truncatedDescriptor),
      (running [3, 0x0F, 1, 2] 0 0, some .truncatedPayload), (running [2, 0x1C, 1, 2] 0 3, some .invalidLength),
      (running [1, 0x1C, 5] 0 2, some .overrunNestedGroup), (running [1, 0x1C, 5] 0 3, none)].all fun c =>
        c.1.state == .run && nextIs (parserStep defaultIds c.1) fun t => t.err == c.2) = true :=
  ⟨⟨running_inv.2.2.2.1, running_inv.2.2.1, running_inv.2.2.2.2.2.2.2, running_inv.2.2.2.2.2.1,
    running_inv.2.2.2.2.2.2.1, running_inv.2.1⟩, by decide⟩

theorem witness_FailureEntryChangesOnlyErrAndState :
    (running [2, 0x1C, 1, 2] 0 3).Inv defaultParams ∧ (running [2, 0x1C, 1, 2] 0 3).state = .run ∧
      nextIs (parserStep defaultIds (running [2, 0x1C, 1, 2] 0 3)) (fun t => t.state == .error) = true ∧
      (running [1, 0x1C, 5] 0 2).Inv defaultParams ∧ (running [1, 0x1C, 5] 0 2).state = .run ∧
      nextIs (parserStep defaultIds (running [1, 0x1C, 5] 0 2)) (fun t => t.err == some .overrunNestedGroup) = true :=
  ⟨running_inv.2.2.2.2.2.1, by decide, by decide, running_inv.2.2.2.2.2.2.1, by decide⟩

theorem witness_SuccessfulEndings :
    (running [9] 1 0).Inv defaultParams ∧ (running [0x80, 0x3F] 0 0).Inv defaultParams ∧ (running [1, 0x1C, 5] 0 3).Inv defaultParams ∧
      ([running [9] 1 0, running [0x80, 0x3F] 0 0, running [1, 0x1C, 5] 0 3].all fun s =>
        s.state == .run && nextIs (parserStep defaultIds s) fun t => t.state == .done) = true :=
  ⟨running_inv.2.2.2.1, running_inv.2.2.2.2.1, running_inv.2.1, by decide⟩

theorem witness_CursorAndModeMovement :
    (running [2, 0x0F, 1, 2] 0 0).Inv defaultParams ∧ (running [1, 0x1C, 5] 0 3).Inv defaultParams ∧
      ([running [2, 0x0F, 1, 2] 0 0, running [1, 0x1C, 5] 0 3].all fun s =>
        s.state == .run && decide (s.bytesLeft 2) && nextIs (parserStep defaultIds s) fun t => t.state != .error) = true :=
  ⟨running_inv.1, running_inv.2.1, by decide⟩

theorem witness_EveryParseEndsWithinItsBound :
    (running [2, 0x0F, 1, 2] 0 0).Inv defaultParams ∧ (running [2, 0x0F, 1, 2] 0 0).state = .run ∧
      (running [2, 0x0F, 1, 2] 0 0).turns = [] ∧ State.reset.Inv defaultParams ∧ State.reset.state ≠ .run ∧ State.reset.turns = [] ∧
      nextIs (parserStep defaultIds (running [2, 0x0F, 1, 2] 0 0)) (fun t => t.state == .run) = true :=
  ⟨running_inv.1, by decide, by decide, by constructor <;> decide, by decide⟩

theorem witness_NoReadOutsideTheValidBytes : (running [1, 2] 0 0).len < 1 + 2 := by decide

theorem witness_EveryStepKeepsTheInvariant :
    (running [1, 0x1C, 5] 0 3).Inv defaultParams ∧ nextIs (turnStep defaultParams (running [1, 0x1C, 5] 0 3)) (fun _ => true) = true :=
  ⟨running_inv.2.1, by decide⟩

theorem witness_EveryStepButALenWriteKeepsR31 :
    (withTurns (finished [1, 2]) [.host (.writeReg 10 7)]).R31 defaultParams ∧
      Turn.writesLen (.host (.writeReg 10 7)) = false ∧
      nextIs (turnStep defaultParams (withTurns (finished [1, 2]) [.host (.writeReg 10 7)])) (fun _ => true) = true :=
  ⟨by constructor <;> decide, by decide⟩

theorem witness_LenWriteAfterAParsePassesTheCursor :
    (withTurns (finished [1, 2]) [.host (.writeReg 2 1)]).state = .done ∧
      1 % 2 ^ defaultParams.lenW <
        (withTurns (finished [1, 2]) [.host (.writeReg 2 1)]).cursor := by decide

theorem witness_DiscardAndRecordSteerNothing :
    (running [1, 0x1C, 5] 0 3).turns = [] ∧
      (running [1, 0x1C, 5] 0 3).sameWalk
        { running [1, 0x1C, 5] 0 3 with
          discard := true, record := { State.reset.record with asnLs4b := 7 } } := by decide

theorem witness_BytesBeyondLenHaveNoEffect :
    (running [1, 0x1C, 5] 0 3).turns = [] ∧
      (running [1, 0x1C, 5] 0 3).sameFrame { running [1, 0x1C, 5] 0 3 with buf := bufOf [1, 0x1C, 5, 9] } := by decide

theorem witness_HostCommandsDuringRunChangeNothing :
    (withTurns (running [9] 0 0) ([.writeReg 2 0, .writeBuf 0 0, .writeReg 0 1, .readReg 1].map .host ++ [])).state =
      .run := by decide

theorem witness_ResultsStayAfterCompletion :
    (finished [1]).state = .done ∧ (failed [1]).state = .error ∧
      (withTurns (finished [1]) [.parser]).turns = .parser :: [] ∧
      (withTurns (failed [1]) [.host (.readReg 1)]).turns = .host (.readReg 1) :: [] ∧
      (withTurns (failed [1]) [.host (.readBuf 0)]).turns = .host (.readBuf 0) :: [] := by decide

theorem witness_HostRegisterWrites :
    (withTurns (running [9] 0 0) [.host (.writeReg 10 5)]).state = .run ∧
      (withTurns (finished [9]) [.host (.writeReg 0 2)]).state ≠ .run ∧ (2 : Nat).testBit 0 = false ∧
      ([2, 8, 9, 10, 11, 12, 13, 14].all fun n =>
        (withTurns (finished [9]) [.host (.writeReg n 5)]).turns == [.host (.writeReg n 5)]) = true ∧
      15 ∉ [0, 2, 8, 9, 10, 11, 12, 13, 14] := by decide

theorem witness_HostRegisterReads :
    ([0, 1, 2, 3, 4, 5, 8, 9, 10, 11, 12, 13, 14, 6, 7, 15, 16].all fun n =>
      (withTurns (finished [9]) [.host (.readReg n)]).turns == [.host (.readReg n)]) = true ∧ 15 < 16 := by decide

theorem witness_StatusFields :
    (running [9] 0 1).Inv defaultParams ∧ (withTurns (running [9] 0 1) [.host (.writeReg 1 9)]).turns = .host (.writeReg 1 9) :: [] :=
  ⟨running_inv.2.2.1, by decide⟩

theorem witness_ResetFromAnyState :
    (withTurns (running [9] 0 1) [.reset ⟨bufOf [1, 2], State.reset.record⟩]).turns =
        .reset ⟨bufOf [1, 2], State.reset.record⟩ :: [] ∧ (bufOf [1, 2]).wf defaultParams.bufCap = true := by decide

theorem witness_TimeCorrectionField : (-2048 : Int) ≤ -2048 ∧ (-2048 : Int) ≤ 2047 ∧ 7 < 8 := by decide

theorem witness_PlacedWordIsRunNext : State.reset.buf.wf defaultParams.bufCap = true ∧ 8 < 16 ∧ 8 ≤ 8 := by decide

end Sys2Proof.Tests
end

/-! SUPPORT. The parser's turn as a function that always answers a next state, and one turn by the head of the list. -/

namespace Sys2Proof.Machine

/-! ## An IE and the parser's step as functions -/

/-- The state after an IE: truncated, of a wrong length, or its effect (60_exceptions.md R176). -/
def ieNext (i : Instr) (s : State) : State :=
  if s.rem < i.declaredLen then s.raise .truncatedPayload
  else if i.requiredLen ≠ none ∧ i.requiredLen ≠ some i.declaredLen then s.raise .invalidLength
  else effect i s

theorem ieNext_of_truncated {i : Instr} {s : State} (h : s.rem < i.declaredLen) :
    ieNext i s = s.raise .truncatedPayload := if_pos h

theorem ieNext_of_wrong_size {i : Instr} {s : State} (hle : i.declaredLen ≤ s.rem) (hreq : i.requiredLen ≠ none)
    (hne : i.requiredLen ≠ some i.declaredLen) : ieNext i s = s.raise .invalidLength := by
  rw [ieNext, if_neg (by omega), if_pos ⟨hreq, hne⟩]

theorem ieNext_of_accepted {i : Instr} {s : State} (hle : i.declaredLen ≤ s.rem)
    (hreq : i.requiredLen = none ∨ i.requiredLen = some i.declaredLen) : ieNext i s = effect i s := by
  rw [ieNext, if_neg (by omega), if_neg fun h => hreq.elim h.1 h.2]

theorem exec_eq_next_ieNext {i : Instr} (s : State) (hi : i.isIE = true) : exec i s = .next (ieNext i s) := by
  rcases exec_ieCases i s hi with ⟨hlt, e⟩ | ⟨hle, hreq, hne, e⟩ | ⟨hle, hreq, e⟩
  · rw [ieNext_of_truncated hlt, e]
  · rw [ieNext_of_wrong_size hle hreq hne, e]
  · rw [ieNext_of_accepted hle hreq, e]

/-- What an IE can do, each case with its guard. -/
theorem ieNext_cases (i : Instr) (s : State) :
    (s.rem < i.declaredLen ∧ ieNext i s = s.raise .truncatedPayload) ∨
    (i.declaredLen ≤ s.rem ∧ i.requiredLen ≠ none ∧ i.requiredLen ≠ some i.declaredLen ∧
      ieNext i s = s.raise .invalidLength) ∨
    (i.declaredLen ≤ s.rem ∧ (i.requiredLen = none ∨ i.requiredLen = some i.declaredLen) ∧
      ieNext i s = effect i s) := by
  by_cases hlt : s.rem < i.declaredLen
  · exact .inl ⟨hlt, ieNext_of_truncated hlt⟩
  · have hle : i.declaredLen ≤ s.rem := by omega
    by_cases hreq : i.requiredLen = none ∨ i.requiredLen = some i.declaredLen
    · exact .inr (.inr ⟨hle, hreq, ieNext_of_accepted hle hreq⟩)
    · obtain ⟨hnone, hne⟩ := not_or.1 hreq
      exact .inr (.inl ⟨hle, hnone, hne, ieNext_of_wrong_size hle hnone hne⟩)

/-- The mode an IE is met in (30_encoding.md R68); a `CTRL` write is met in none. -/
def metIn : Instr → Option Mode
  | .hieAcknackTc _ => some .notNested
  | .hieListTerm2 _ => some .notNested
  | .hieListTerm1 _ => some .notNested
  | .hieOther _ _ => some .notNested
  | .pieMlme _ => some .notNested
  | .pieOther _ _ => some .notNested
  | .subsSync _ => some .nested
  | .subsTimeslot _ => some .nested
  | .subsSlotframeLink _ => some .nested
  | .subsOther _ _ => some .nested
  | .sublChseq _ => some .nested
  | .sublOther _ _ => some .nested
  | .start _ => none
  | .setDiscard _ => none

theorem metIn_headerRow (p : Ids) (id : BitVec 8) (len : BitVec 7) : metIn (headerRow p id len) = some .notNested := by
  unfold headerRow; split_ifs <;> rfl

theorem metIn_payloadRow (id : BitVec 4) (len : BitVec 11) : metIn (payloadRow id len) = some .notNested := by
  unfold payloadRow; split_ifs <;> rfl

theorem metIn_shortRow (p : Ids) (id : BitVec 7) (len : BitVec 8) : metIn (shortRow p id len) = some .nested := by
  unfold shortRow; split_ifs <;> rfl

theorem metIn_longRow (p : Ids) (id : BitVec 4) (len : BitVec 11) : metIn (longRow p id len) = some .nested := by
  unfold longRow; split_ifs <;> rfl

/-- The decoder reads an IE of the mode it is given (40_walker.md R93). -/
theorem metIn_decodeDescriptor (p : Ids) (m : Mode) (d : Desc) : metIn (decodeDescriptor p m d) = some m := by
  unfold decodeDescriptor
  split
  · exact metIn_headerRow p _ _
  · exact metIn_payloadRow _ _
  · exact metIn_shortRow p _ _
  · exact metIn_longRow p _ _

theorem isIE_of_metIn {i : Instr} {m : Mode} (h : metIn i = some m) : i.isIE = true := by
  cases i with
  | start _ => cases h
  | setDiscard _ => cases h
  | _ => rfl

/-- The state after the parser's turn, in the order of 40_walker.md R90. -/
def parserNext (p : Ids) (s : State) : State :=
  if s.state ≠ .run then s
  else if s.rem0 = 0 then s.finish .exhausted s.cursor
  else if s.rem0 = 1 then s.raise .truncatedDescriptor
  else ieNext (decodeDescriptor p s.mode s.descriptor) s

theorem parserNext_of_not_run (p : Ids) {s : State} (h : s.state ≠ .run) : parserNext p s = s := if_pos h

theorem parserNext_of_exhausted (p : Ids) {s : State} (hr : s.state = .run) (h : s.rem0 = 0) :
    parserNext p s = s.finish .exhausted s.cursor := by
  rw [parserNext, if_neg (by simpa using hr), if_pos h]

theorem parserNext_of_lone_byte (p : Ids) {s : State} (hr : s.state = .run) (h : s.rem0 = 1) :
    parserNext p s = s.raise .truncatedDescriptor := by
  rw [parserNext, if_neg (by simpa using hr), if_neg (by omega), if_pos h]

theorem parserNext_of_bytesLeft (p : Ids) {s : State} (hr : s.state = .run) (h : s.bytesLeft 2) :
    parserNext p s = ieNext (decodeDescriptor p s.mode s.descriptor) s := by
  have hrem : 2 ≤ s.rem0 := by unfold State.rem0; omega
  rw [parserNext, if_neg (by simpa using hr), if_neg (by omega), if_neg (by omega)]

/-- The parser's turn never stops the machine. -/
theorem parserStep_eq_next_parserNext (p : Ids) (s : State) : parserStep p s = .next (parserNext p s) := by
  rcases parserStep_cases p s with ⟨hr, e⟩ | ⟨hr, h0, e⟩ | ⟨hr, h1, e⟩ | ⟨hr, h2, e⟩
  · rw [parserNext_of_not_run p hr, e]
  · rw [parserNext_of_exhausted p hr h0, e]
  · rw [parserNext_of_lone_byte p hr h1, e]
  · rw [parserNext_of_bytesLeft p hr h2, e,
      exec_eq_next_ieNext s (isIE_of_metIn (metIn_decodeDescriptor p s.mode s.descriptor))]

/-- What the parser's turn can do, in the order of 40_walker.md R90. -/
theorem parserNext_cases (p : Ids) (s : State) :
    (s.state ≠ .run ∧ parserNext p s = s) ∨
    (s.state = .run ∧ s.rem0 = 0 ∧ parserNext p s = s.finish .exhausted s.cursor) ∨
    (s.state = .run ∧ s.rem0 = 1 ∧ parserNext p s = s.raise .truncatedDescriptor) ∨
    (s.state = .run ∧ s.bytesLeft 2 ∧ parserNext p s = ieNext (decodeDescriptor p s.mode s.descriptor) s) := by
  by_cases hr : s.state = .run
  · by_cases h0 : s.rem0 = 0
    · exact .inr (.inl ⟨hr, h0, parserNext_of_exhausted p hr h0⟩)
    · by_cases h1 : s.rem0 = 1
      · exact .inr (.inr (.inl ⟨hr, h1, parserNext_of_lone_byte p hr h1⟩))
      · have h2 : s.bytesLeft 2 := by unfold State.rem0 at h0 h1; omega
        exact .inr (.inr (.inr ⟨hr, h2, parserNext_of_bytesLeft p hr h2⟩))
  · exact .inl ⟨hr, parserNext_of_not_run p hr⟩

/-! ## One turn, by the head of the list -/

theorem turnStep_of_nil (p : Params) {s : State} (h : s.turns = []) :
    turnStep p s = .next (parserNext p.ids s) := by
  unfold turnStep; rw [h]; exact parserStep_eq_next_parserNext p.ids s

theorem turnStep_of_parser (p : Params) {s : State} {rest : List Turn} (h : s.turns = .parser :: rest) :
    turnStep p s = .next (parserNext p.ids { s with turns := rest }) := by
  unfold turnStep; rw [h]; exact parserStep_eq_next_parserNext p.ids _

theorem turnStep_of_host (p : Params) {s : State} {c : HostCommand} {rest : List Turn} (h : s.turns = .host c :: rest) :
    turnStep p s = hostStep p c { s with turns := rest } := by
  unfold turnStep; rw [h]

theorem turnStep_of_reset (p : Params) {s : State} {d : ResetDraw} {rest : List Turn} (h : s.turns = .reset d :: rest) :
    turnStep p s = .next (State.takeReset p d { s with turns := rest }) := by
  unfold turnStep; rw [h]

end Sys2Proof.Machine

/-! SUPPORT. What each agent can do in one turn, said once as a relation: the moves of the parser and of the host. -/

namespace Sys2Proof.Machine

/-- What the parser's turn does to a running state that meets the bounds of 10_state.md R31 (a) and (d): it fails, ends
the parse with no group open, or moves the cursor and the budget inside the valid bytes. -/
inductive ParserMove (s : State) : State → Prop
  | fail (e : ParseFailure) (r : Record) :
    ParserMove s { s with record := r, err := some e, state := .error }
  | finish (cause : EndCause) (n : Nat) (r : Record) (hn : n ≤ s.len) (hex : cause = .exhausted → n = s.len) :
    ParserMove s
      { s with record := r, mlmeRem := 0, consumed := n, cursor := n, endCause := some cause, state := .done }
  | advance (n : Nat) (budget : BitVec 11) (r : Record) (hn : n ≤ s.len) (hb : budget.toNat ≤ s.len - n) :
    ParserMove s { s with record := r, mlmeRem := budget, cursor := n }

/-- Passing a top-level IE. -/
theorem parserMove_advance {s : State} {n : Nat} (r : Record) (hm : s.mlmeRem = 0) (hn : n ≤ s.len) :
    ParserMove s (State.advance n { s with record := r }) :=
  .advance n s.mlmeRem r hn (by simp [hm])

/-- The tail of a sub-IE. -/
theorem parserMove_nestedTail {s : State} {len : Nat} (r : Record) (hn : s.cursor + 2 + len ≤ s.len)
    (hb : s.mlmeRem.toNat ≤ s.len - s.cursor) :
    ParserMove s (State.nestedTail len (s.cursor + 2) { s with record := r }) := by
  rcases State.nestedTail_cases len (s.cursor + 2) { s with record := r } with ⟨-, e⟩ | ⟨-, e⟩ | ⟨-, e⟩
  · rw [e]; exact .fail _ r
  · rw [e]; exact .finish .groupDone _ r hn nofun
  · rw [e]
    refine .advance _ _ r hn ?_
    rw [State.budget_left_toNat]
    dsimp only
    omega

/-- The effect of an IE met in the walker's mode is a move: a top-level IE is met with no group open. -/
theorem parserMove_effect {i : Instr} {s : State} (hm : metIn i = some s.mode) (h2 : s.bytesLeft 2)
    (hle : i.declaredLen ≤ s.rem) (hb : s.mlmeRem.toNat ≤ s.len - s.cursor) : ParserMove s (effect i s) := by
  have hn : s.cursor + 2 + i.declaredLen ≤ s.len := by unfold State.rem State.rem0 at hle; omega
  have top (h : some Mode.notNested = some s.mode) : s.mlmeRem = 0 :=
    s.mode_eq_notNested_iff.1 (Option.some.inj h).symm
  cases i with
  | hieAcknackTc len => rw [effect, State.writeRecord_eq]; exact parserMove_advance _ (top hm) hn
  | hieListTerm2 len =>
    have e : effect (.hieListTerm2 len) s =
        State.finish .listTerm (s.cursor + 2 + len.toNat) { s with mlmeRem := 0 } := by rw [← top hm]; rfl
    rw [e]
    exact .finish .listTerm _ s.record hn nofun
  | hieListTerm1 len => exact parserMove_advance s.record (top hm) hn
  | hieOther id len => exact parserMove_advance s.record (top hm) hn
  | pieMlme len =>
    refine .advance _ len s.record h2 ?_
    simp only [Instr.declaredLen] at hn
    omega
  | pieOther id len => exact parserMove_advance s.record (top hm) hn
  | subsSync len => rw [effect, State.writeRecord_eq]; exact parserMove_nestedTail _ hn hb
  | subsTimeslot len => rw [effect, State.writeRecord_eq]; exact parserMove_nestedTail _ hn hb
  | subsSlotframeLink len => exact parserMove_nestedTail s.record hn hb
  | subsOther id len => exact parserMove_nestedTail s.record hn hb
  | sublChseq len => rw [effect, State.writeRecord_eq]; exact parserMove_nestedTail _ hn hb
  | sublOther id len => exact parserMove_nestedTail s.record hn hb
  | start discard => cases hm
  | setDiscard discard => cases hm

/-- The parser's turn of a running parse inside its bounds is a move. -/
theorem parserMove_parserNext (p : Ids) {s : State} (hr : s.state = .run) (hc : s.cursor ≤ s.len)
    (hb : s.mlmeRem.toNat ≤ s.len - s.cursor) : ParserMove s (parserNext p s) := by
  rcases parserNext_cases p s with ⟨hnr, -⟩ | ⟨-, h0, e⟩ | ⟨-, -, e⟩ | ⟨-, h2, e⟩
  · exact absurd hr hnr
  · have hlen : s.cursor = s.len := by unfold State.rem0 at h0; omega
    have hm : s.mlmeRem = 0 := BitVec.eq_of_toNat_eq (by simp; omega)
    have hclosed : s.finish .exhausted s.cursor = State.finish .exhausted s.cursor { s with mlmeRem := 0 } := by
      rw [← hm]
    rw [e, hclosed]
    exact .finish .exhausted _ s.record hc fun _ => hlen
  · rw [e]; exact .fail _ s.record
  · rw [e]
    rcases ieNext_cases (decodeDescriptor p s.mode s.descriptor) s with ⟨-, e⟩ | ⟨-, -, -, e⟩ | ⟨hle, -, e⟩
    · rw [e]; exact .fail _ s.record
    · rw [e]; exact .fail _ s.record
    · rw [e]; exact parserMove_effect (metIn_decodeDescriptor p _ _) h2 hle hb

/-- What a host command does, under the guards of 45_host_commands.md. -/
inductive HostMove (p : Params) (s : State) : HostCommand → State → Prop
  /-- Dropped, or a read: at most the replies change. -/
  | keep (c : HostCommand) (rs : List HostReply) : HostMove p s c { s with replies := rs }
  /-- `START`. -/
  | start (c : HostCommand) (discard : Bool) (hr : s.state ≠ .run) : HostMove p s c
      { s with
        discard := discard
        cursor := 0
        mlmeRem := 0
        consumed := 0
        err := none
        endCause := none
        state := .run }
  /-- A write of `LEN`. -/
  | len (v : Nat) (hr : s.state ≠ .run) : HostMove p s (.writeReg 2 v) { s with len := v % 2 ^ p.lenW }
  /-- A write of `DISCARD`, of a result register or of the buffer. -/
  | data (c : HostCommand) (discard : Bool) (r : Record) (m : Memory) (hr : s.state ≠ .run)
      (hm : s.buf.wf p.bufCap = true → m.wf p.bufCap = true) :
    HostMove p s c { s with discard := discard, record := r, buf := m }

/-- A host write of `CTRL` is a move. -/
theorem hostMove_effect_decodeCtrl (p : Params) (s : State) (c : HostCommand) (v : Nat) :
    HostMove p s c (effect (decodeCtrl (BitVec.ofNat 2 v)) s) := by
  rw [decodeCtrl_ofNat]
  split
  · rcases s.startParse_cases (v.testBit 1) with ⟨-, e⟩ | ⟨hr, e⟩
    · rw [effect, e]; exact .keep c s.replies
    · rw [effect, e]; exact .start c _ hr
  · rw [effect]
    split
    · exact .keep c s.replies
    · next hr => exact .data c _ s.record s.buf hr id

/-- Every host command answers a next state, by a move. -/
theorem hostStep_hostMove (p : Params) (c : HostCommand) (s : State) :
    ∃ t, hostStep p c s = .next t ∧ HostMove p s c t := by
  cases c with
  | writeReg n v =>
    by_cases hn : n = 0
    · refine ⟨effect (decodeCtrl (BitVec.ofNat 2 v)) s, ?_, hostMove_effect_decodeCtrl p s _ v⟩
      rw [hostStep, if_pos hn, exec_ctrl _ _ (by rw [decodeCtrl_ofNat]; split <;> rfl)]
    · refine ⟨s.writeReg p n v, by rw [hostStep, if_neg hn], ?_⟩
      rcases s.writeReg_cases p n v with ⟨-, e⟩ | ⟨hr, rfl, e⟩ | ⟨hr, -, e⟩
      · rw [e]; exact .keep _ s.replies
      · rw [e]; exact .len v hr
      · rw [e]; exact .data _ s.discard _ s.buf hr id
  | readReg n => exact ⟨_, rfl, .keep _ _⟩
  | writeBuf a b =>
    refine ⟨s.writeBuf p a b, rfl, ?_⟩
    by_cases hr : s.state = .run
    · rw [State.writeBuf_of_run p a b hr]; exact .keep _ s.replies
    · rw [State.writeBuf, if_neg hr]
      exact .data _ s.discard s.record _ hr fun h => Memory.store_wf h a b
  | readBuf a => exact ⟨_, rfl, .keep _ _⟩

/-- What one turn can do. -/
theorem turnStep_cases {p : Params} {s t : State} (h : turnStep p s = .next t) :
    (∃ rest, t = parserNext p.ids { s with turns := rest }) ∨
    (∃ c rest, s.turns = .host c :: rest ∧ HostMove p { s with turns := rest } c t) ∨
    (∃ d rest, t = State.takeReset p d { s with turns := rest }) := by
  cases hs : s.turns with
  | nil =>
    rw [turnStep_of_nil p hs] at h
    cases h
    exact .inl ⟨s.turns, rfl⟩
  | cons turn rest =>
    cases turn with
    | parser =>
      rw [turnStep_of_parser p hs] at h
      cases h
      exact .inl ⟨rest, rfl⟩
    | host c =>
      obtain ⟨u, hu, hmove⟩ := hostStep_hostMove p c { s with turns := rest }
      rw [turnStep_of_host p hs, hu] at h
      cases h
      exact .inr (.inl ⟨c, rest, rfl, hmove⟩)
    | reset d =>
      rw [turnStep_of_reset p hs] at h
      cases h
      exact .inr (.inr ⟨d, rest, rfl⟩)

end Sys2Proof.Machine

/-! PROOFS. The invariant, and 10_state.md R31 as written, over the moves (O38, O39, O40). -/

namespace Sys2Proof.Machine

/-- What the invariant and 10_state.md R31 as written have in common: (a) and (d) while a parse runs, (b) and (c). -/
structure State.StatusLaws (s : State) : Prop where
  cursorLe : s.state = .run → s.cursor ≤ s.len
  errIff : s.err ≠ none ↔ s.state = .error
  endCauseIff : s.endCause ≠ none ↔ s.state = .done
  doneConsumed : s.state = .done → s.cursor = s.consumed
  consumedZero : s.state ≠ .done → s.consumed = 0
  budgetLe : s.state = .run → s.mlmeRem.toNat ≤ s.len - s.cursor

theorem State.Inv.statusLaws {p : Params} {s : State} (h : s.Inv p) : s.StatusLaws := { h with }

theorem State.R31.statusLaws {p : Params} {s : State} (h : s.R31 p) : s.StatusLaws :=
  { h with cursorLe := fun _ => h.cursorLe.1 }

theorem State.Inv.withTurns {p : Params} {s : State} (h : s.Inv p) (ts : List Turn) :
    State.Inv p { s with turns := ts } := { h with }

theorem State.R31.withTurns {p : Params} {s : State} (h : s.R31 p) (ts : List Turn) :
    State.R31 p { s with turns := ts } := { h with }

/-- A running parse has neither failed nor ended. -/
theorem State.StatusLaws.of_run {s : State} (h : s.StatusLaws) (hr : s.state = .run) :
    s.err = none ∧ s.endCause = none ∧ s.consumed = 0 := by
  refine ⟨?_, ?_, h.consumedZero (by simp [hr])⟩
  · by_contra he
    simpa [hr] using h.errIff.1 he
  · by_contra he
    simpa [hr] using h.endCauseIff.1 he

theorem ParserMove.statusLaws {s t : State} (hmove : ParserMove s t) (hr : s.state = .run) (h : s.StatusLaws) :
    t.StatusLaws := by
  obtain ⟨herr, hend, hcons⟩ := h.of_run hr
  cases hmove with
  | fail e r => constructor <;> simp [hend, hcons]
  | finish cause n r hn hex => constructor <;> simp [herr]
  | advance n budget r hn hb => constructor <;> simp [herr, hend, hcons, hr, hn, hb]

theorem HostMove.statusLaws {p : Params} {s t : State} {c : HostCommand} (hmove : HostMove p s c t)
    (h : s.StatusLaws) : t.StatusLaws := by
  cases hmove with
  | keep c rs => exact { h with }
  | start c discard hr => constructor <;> simp
  | len v hr => exact { h with cursorLe := fun hrun => absurd hrun hr, budgetLe := fun hrun => absurd hrun hr }
  | data c discard r m hr hm => exact { h with }

theorem ParserMove.inv {p : Params} {s t : State} (hmove : ParserMove s t) (hr : s.state = .run) (h : s.Inv p) :
    t.Inv p := by
  have hlen := h.lenFits
  have hstatus := hmove.statusLaws hr h.statusLaws
  cases hmove with
  | fail e r => exact { hstatus, h with doneBudget := nofun, idleCursor := nofun }
  | finish cause n r hn hex =>
    exact
      { hstatus, h with
        cursorFits := lt_of_le_of_lt hn hlen
        consumedFits := lt_of_le_of_lt hn hlen
        doneBudget := fun _ => rfl
        idleCursor := nofun }
  | advance n budget r hn hb =>
    exact
      { hstatus, h with
        cursorFits := lt_of_le_of_lt hn hlen
        doneBudget := fun hdone => by simp [hr] at hdone
        idleCursor := fun hidle => by simp [hr] at hidle }

/-- The invariant is kept by the parser's turn. -/
theorem State.Inv.parserNext {p : Params} {s : State} (h : s.Inv p) : (parserNext p.ids s).Inv p := by
  by_cases hr : s.state = .run
  · exact (parserMove_parserNext p.ids hr (h.cursorLe hr) (h.budgetLe hr)).inv hr h
  · rw [parserNext_of_not_run p.ids hr]; exact h

theorem HostMove.inv {p : Params} {s t : State} {c : HostCommand} (hmove : HostMove p s c t) (h : s.Inv p) :
    t.Inv p := by
  have hstatus := hmove.statusLaws h.statusLaws
  cases hmove with
  | keep c rs => exact { h with }
  | start c discard hr =>
    exact
      { hstatus, h with
        cursorFits := Nat.two_pow_pos _
        consumedFits := Nat.two_pow_pos _
        doneBudget := nofun
        idleCursor := nofun }
  | len v hr => exact { hstatus, h with lenFits := Nat.mod_lt _ (Nat.two_pow_pos _) }
  | data c discard r m hr hm => exact { h with bufWf := hm h.bufWf }

/-- The invariant holds after a reset from any state, whatever the draw. -/
theorem State.takeReset_inv (p : Params) (d : ResetDraw) (s : State) : (s.takeReset p d).Inv p := by
  have hpos := Nat.two_pow_pos p.lenW
  have hwf := Memory.ofCells_wf p.bufCap d.buf
  constructor <;> simp [hpos, hwf]

/-- `State.reset` is itself a state after a reset. -/
theorem State.takeReset_zero (p : Params) : State.takeReset p ResetDraw.zero State.reset = State.reset := rfl

/-- Settles O38: each of the three agents keeps the invariant. -/
theorem everyStepKeepsTheInvariant : Obligations.EveryStepKeepsTheInvariant := by
  intro p s t h hstep
  rcases turnStep_cases hstep with ⟨rest, rfl⟩ | ⟨c, rest, -, hmove⟩ | ⟨d, rest, rfl⟩
  · exact (h.withTurns rest).parserNext
  · exact hmove.inv (h.withTurns rest)
  · exact State.takeReset_inv p d _

/-- Settles O39: `State.reset` is the state after one reset event among all. -/
theorem invariantHoldsAtReset : Obligations.InvariantHoldsAtReset := fun p =>
  ⟨State.takeReset_zero p ▸ State.takeReset_inv p ResetDraw.zero State.reset, State.takeReset_inv p⟩

theorem ParserMove.r31 {p : Params} {s t : State} (hmove : ParserMove s t) (hr : s.state = .run) (h : s.R31 p) :
    t.R31 p := by
  obtain ⟨hcur, hcap⟩ := h.cursorLe
  obtain ⟨-, hend, -⟩ := h.statusLaws.of_run hr
  have hstatus := hmove.statusLaws hr h.statusLaws
  cases hmove with
  | fail e r => exact { hstatus, h with exhausted := nofun, cursorLe := h.cursorLe }
  | finish cause n r hn hex =>
    exact
      { hstatus with
        cursorLe := ⟨hn, hcap⟩
        exhausted := fun _ hcause => ⟨hex (Option.some.inj hcause), rfl⟩
        groupDone := fun _ => rfl
        listTerm := fun _ => rfl }
  | advance n budget r hn hb =>
    exact
      { hstatus with
        cursorLe := ⟨hn, hcap⟩
        exhausted := fun hdone => by simp [hr] at hdone
        groupDone := fun hcause => by simp [hend] at hcause
        listTerm := fun hcause => by simp [hend] at hcause }

/-- R31 as written is kept by the parser's turn. -/
theorem State.R31.parserNext {p : Params} {s : State} (h : s.R31 p) : (parserNext p.ids s).R31 p := by
  by_cases hr : s.state = .run
  · exact (parserMove_parserNext p.ids hr h.cursorLe.1 (h.budgetLe hr)).r31 hr h
  · rw [parserNext_of_not_run p.ids hr]; exact h

/-- R31 as written is kept by every host command but a write of `LEN`. -/
theorem HostMove.r31 {p : Params} {s t : State} {c : HostCommand} (hmove : HostMove p s c t)
    (hc : (Turn.host c).writesLen = false) (h : s.R31 p) : t.R31 p := by
  have hstatus := hmove.statusLaws h.statusLaws
  obtain ⟨-, hcap⟩ := h.cursorLe
  cases hmove with
  | keep c rs => exact { h with }
  | start c discard hr =>
    exact
      { hstatus with
        cursorLe := ⟨Nat.zero_le _, hcap⟩
        exhausted := nofun
        groupDone := nofun
        listTerm := nofun }
  | len v hr => cases hc
  | data c discard r m hr hm => exact { h with }

theorem State.takeReset_r31 (p : Params) (d : ResetDraw) (s : State) : (s.takeReset p d).R31 p := by
  constructor <;> simp

/-- Settles O40: the three agents again, the host's write of `LEN` left out. -/
theorem everyStepButALenWriteKeepsR31 : Obligations.EveryStepButALenWriteKeepsR31 := by
  intro p s t h hlen hstep
  rcases turnStep_cases hstep with ⟨rest, rfl⟩ | ⟨c, rest, hturns, hmove⟩ | ⟨d, rest, rfl⟩
  · exact (h.withTurns rest).parserNext
  · exact hmove.r31 (hlen _ rest hturns) (h.withTurns rest)
  · exact State.takeReset_r31 p d _

end Sys2Proof.Machine

/-! PROOFS. The parser's turn over another buffer that holds the valid bytes (O43). -/

namespace Sys2Proof.Machine

/-- The same state over another buffer. -/
def State.withBuf (m : Memory) (s : State) : State := { s with buf := m }

/-- A buffer that holds the valid bytes of the state. -/
def State.HoldsValid (s : State) (m : Memory) : Prop := ∀ a, a < s.len → m.read a = s.buf.read a

theorem State.sameFrame_iff_withBuf (s t : State) :
    s.sameFrame t ↔ t = s.withBuf t.buf ∧ s.HoldsValid t.buf := by
  refine and_congr_left' ⟨fun h => ?_, fun h => ?_⟩
  · rw [← h]; rfl
  · rw [h]; rfl

theorem State.HoldsValid.byteAt {s : State} {m : Memory} (h : s.HoldsValid m) {k : Nat} (hk : s.cursor + k < s.len) :
    (s.withBuf m).byteAt k = s.byteAt k := h _ hk

theorem State.HoldsValid.descriptor {s : State} {m : Memory} (h : s.HoldsValid m) (h2 : s.bytesLeft 2) :
    (s.withBuf m).descriptor = s.descriptor := by
  rw [State.descriptor, h.byteAt (by omega), h.byteAt (by omega)]

theorem State.writeRecord_withBuf (f : Record → Record) (m : Memory) (s : State) :
    (s.withBuf m).writeRecord f = (s.writeRecord f).withBuf m := by
  rw [State.writeRecord_eq, State.writeRecord_eq]; rfl

theorem State.nestedTail_withBuf (len n : Nat) (m : Memory) (s : State) :
    (s.withBuf m).nestedTail len n = (s.nestedTail len n).withBuf m := by
  unfold State.nestedTail
  rw [State.withBuf]
  split
  · rfl
  · split <;> rfl

/-- The size of an accepted IE with a parser of its own. -/
theorem declaredLen_eq_size {i : Instr} {size : Nat} (hsize : i.requiredLen = some size)
    (hreq : i.requiredLen = none ∨ i.requiredLen = some i.declaredLen) : i.declaredLen = size := by
  rw [hsize] at hreq
  exact (Option.some.inj (hreq.resolve_left nofun)).symm

/-- What an accepted IE writes depends on its payload bytes only. -/
theorem recordWrite_congr {i : Instr} {s t : State} (hreq : i.requiredLen = none ∨ i.requiredLen = some i.declaredLen)
    (hbyte : ∀ k, 2 ≤ k → k < 2 + i.declaredLen → t.byteAt k = s.byteAt k) :
    recordWrite i t = recordWrite i s := by
  funext r
  cases i with
  | hieAcknackTc len =>
    rw [declaredLen_eq_size rfl hreq] at hbyte
    rw [recordWrite, recordWrite, hbyte 2 (by decide) (by decide), hbyte 3 (by decide) (by decide)]
  | subsSync len =>
    rw [declaredLen_eq_size rfl hreq] at hbyte
    rw [recordWrite, recordWrite, hbyte 2 (by decide) (by decide), hbyte 3 (by decide) (by decide),
      hbyte 4 (by decide) (by decide), hbyte 5 (by decide) (by decide), hbyte 6 (by decide) (by decide),
      hbyte 7 (by decide) (by decide)]
  | subsTimeslot len =>
    rw [declaredLen_eq_size rfl hreq] at hbyte
    rw [recordWrite, recordWrite, hbyte 2 (by decide) (by decide)]
  | sublChseq len =>
    rw [declaredLen_eq_size rfl hreq] at hbyte
    rw [recordWrite, recordWrite, hbyte 2 (by decide) (by decide)]
  | _ => rfl

/-- The effect of an IE over another buffer that holds the valid bytes. -/
theorem State.HoldsValid.effect {s : State} {m : Memory} (h : s.HoldsValid m) {i : Instr} (hi : i.isIE = true)
    (hle : i.declaredLen ≤ s.rem) (hreq : i.requiredLen = none ∨ i.requiredLen = some i.declaredLen) :
    effect i (s.withBuf m) = (effect i s).withBuf m := by
  have hrec : recordWrite i (s.withBuf m) = recordWrite i s := recordWrite_congr hreq fun k h2 hk =>
    h.byteAt (by have := State.payload_le_len (by omega) hle; omega)
  cases i with
  | hieAcknackTc len => rw [Machine.effect, Machine.effect, hrec, State.writeRecord_withBuf]; rfl
  | subsSync len =>
    rw [Machine.effect, Machine.effect, hrec, State.writeRecord_withBuf]; exact State.nestedTail_withBuf _ _ _ _
  | subsTimeslot len =>
    rw [Machine.effect, Machine.effect, hrec, State.writeRecord_withBuf]; exact State.nestedTail_withBuf _ _ _ _
  | sublChseq len =>
    rw [Machine.effect, Machine.effect, hrec, State.writeRecord_withBuf]; exact State.nestedTail_withBuf _ _ _ _
  | subsSlotframeLink len => exact State.nestedTail_withBuf _ _ _ _
  | subsOther id len => exact State.nestedTail_withBuf _ _ _ _
  | sublOther id len => exact State.nestedTail_withBuf _ _ _ _
  | start discard => cases hi
  | setDiscard discard => cases hi
  | _ => rfl

/-- An IE over another buffer that holds the valid bytes. -/
theorem State.HoldsValid.ieNext {s : State} {m : Memory} (h : s.HoldsValid m) {i : Instr} (hi : i.isIE = true) :
    ieNext i (s.withBuf m) = (ieNext i s).withBuf m := by
  rcases ieNext_cases i s with ⟨hlt, e⟩ | ⟨hle, hreq, hne, e⟩ | ⟨hle, hreq, e⟩
  · rw [e]; exact ieNext_of_truncated hlt
  · rw [e]; exact ieNext_of_wrong_size hle hreq hne
  · rw [e, ← h.effect hi hle hreq]; exact ieNext_of_accepted hle hreq

/-- The parser's turn over another buffer that holds the valid bytes. -/
theorem State.HoldsValid.parserNext {s : State} {m : Memory} (h : s.HoldsValid m) (p : Ids) :
    parserNext p (s.withBuf m) = (parserNext p s).withBuf m := by
  rcases parserNext_cases p s with ⟨hr, e⟩ | ⟨hr, h0, e⟩ | ⟨hr, h1, e⟩ | ⟨hr, h2, e⟩
  · rw [e]; exact parserNext_of_not_run p hr
  · rw [e]; exact parserNext_of_exhausted p hr h0
  · rw [e]; exact parserNext_of_lone_byte p hr h1
  · have hi : (decodeDescriptor p s.mode s.descriptor).isIE = true := isIE_of_metIn (metIn_decodeDescriptor p _ _)
    rw [e, ← h.ieNext hi, ← h.descriptor h2]
    exact parserNext_of_bytesLeft p (s := s.withBuf m) hr h2

/-- An instruction writes neither the buffer nor `LEN`, and takes no turn (20_memory.md R45). -/
theorem effect_frame (i : Instr) (s : State) :
    (effect i s).buf = s.buf ∧ (effect i s).len = s.len ∧ (effect i s).turns = s.turns := by
  cases i with
  | start discard =>
    rw [effect]
    rcases s.startParse_cases discard with ⟨-, e⟩ | ⟨-, e⟩ <;> rw [e] <;> exact ⟨rfl, rfl, rfl⟩
  | setDiscard discard => rw [effect]; split <;> exact ⟨rfl, rfl, rfl⟩
  | _ => simp [effect]

theorem parserNext_frame (p : Ids) (s : State) :
    (parserNext p s).buf = s.buf ∧ (parserNext p s).len = s.len ∧ (parserNext p s).turns = s.turns := by
  rcases parserNext_cases p s with ⟨-, e⟩ | ⟨-, -, e⟩ | ⟨-, -, e⟩ | ⟨-, -, e⟩
  · rw [e]; exact ⟨rfl, rfl, rfl⟩
  · rw [e]; exact ⟨rfl, rfl, rfl⟩
  · rw [e]; exact ⟨rfl, rfl, rfl⟩
  · rw [e]
    rcases ieNext_cases (decodeDescriptor p s.mode s.descriptor) s with ⟨-, e⟩ | ⟨-, -, -, e⟩ | ⟨-, -, e⟩
    · rw [e]; exact ⟨rfl, rfl, rfl⟩
    · rw [e]; exact ⟨rfl, rfl, rfl⟩
    · rw [e]; exact effect_frame _ s

/-- With no turn pending, one step of the machine is the parser's, and the run goes on from it. -/
theorem run_succ_of_turns_nil (p : Params) (k : Nat) {s : State} (h : s.turns = []) :
    Host.Core.run (coreOf p) (k + 1) s = Host.Core.run (coreOf p) k (parserNext p.ids s) := by
  have hstep : (coreOf p).step s = .next (parserNext p.ids s) := turnStep_of_nil p h
  rw [Host.Core.run, hstep]

/-- The parser's turn keeps two states alike below `LEN`. -/
theorem sameFrame_parserNext (p : Ids) {s t : State} (h : s.sameFrame t) :
    (parserNext p s).sameFrame (parserNext p t) := by
  obtain ⟨ht, hvalid⟩ := (s.sameFrame_iff_withBuf t).1 h
  obtain ⟨hbuf, hlen, -⟩ := parserNext_frame p s
  rw [ht, hvalid.parserNext p, State.sameFrame_iff_withBuf]
  refine ⟨rfl, fun a ha => ?_⟩
  rw [hbuf]
  exact hvalid a (hlen ▸ ha)

/-- Settles O43, by induction on the number of steps. -/
theorem bytesBeyondLenHaveNoEffect : Obligations.BytesBeyondLenHaveNoEffect := by
  intro p k
  induction k with
  | zero => exact fun s t _ h => ⟨s, t, rfl, rfl, h⟩
  | succ k ih =>
    intro s t hs h
    obtain ⟨hst, -⟩ := (s.sameFrame_iff_withBuf t).1 h
    obtain ⟨-, -, hturns⟩ := parserNext_frame p.ids s
    have ht : t.turns = [] := by rw [hst]; exact hs
    rw [run_succ_of_turns_nil p k hs, run_succ_of_turns_nil p k ht]
    exact ih _ _ (hturns.trans hs) (sameFrame_parserNext p.ids h)

end Sys2Proof.Machine

/-! PROOFS. The canonical form of the buffer (O8). -/

namespace Sys2Proof.Machine

/-- Below the first listed offset a canonical buffer reads as unlisted. -/
theorem Memory.read_of_lt_head {cap k a : Nat} {v : Byte} {m : Memory} (h : Memory.wf cap ((k, v) :: m) = true)
    (ha : a < k) : Memory.read ((k, v) :: m) a = Config.unwrittenByte := by
  obtain ⟨-, -, hbelow, -⟩ := (Memory.wf_cons_iff k v m).1 h
  refine Memory.read_of_below fun c hc => ?_
  rcases List.mem_cons.1 hc with rfl | hc
  · exact ha
  · exact lt_trans ha (hbelow c hc)

/-- Where two nonempty canonical buffers read alike at the first's head, the second's head is no higher. -/
theorem Memory.head_le_of_read_eq {cap k l : Nat} {v w : Byte} {m n : Memory} (hm : Memory.wf cap ((k, v) :: m) = true)
    (hn : Memory.wf cap ((l, w) :: n) = true) (h : Memory.read ((k, v) :: m) k = Memory.read ((l, w) :: n) k) :
    l ≤ k := by
  obtain ⟨-, hv, -, -⟩ := (Memory.wf_cons_iff k v m).1 hm
  by_contra hlt
  rw [Memory.read_of_lt_head hn (by omega), Memory.read_cons, if_pos rfl] at h
  exact hv h

/-- A canonical buffer that reads as unlisted everywhere is empty. -/
theorem Memory.eq_nil_of_read {cap : Nat} {m : Memory} (hm : m.wf cap = true)
    (h : ∀ a, a < cap → m.read a = Config.unwrittenByte) : m = [] := by
  cases m with
  | nil => rfl
  | cons c m =>
    obtain ⟨k, v⟩ := c
    obtain ⟨hk, hv, -, -⟩ := (Memory.wf_cons_iff k v m).1 hm
    have hread := h k hk
    rw [Memory.read_cons, if_pos rfl] at hread
    exact absurd hread hv

/-- Settles O8, by induction on the first buffer: the heads agree, and so do the rests. -/
theorem buffersThatReadAlikeAreEqual : Obligations.BuffersThatReadAlikeAreEqual := by
  intro cap m
  induction m with
  | nil => exact fun n _ hn h => (Memory.eq_nil_of_read hn fun a ha => (h a ha).symm).symm
  | cons c m ih =>
    obtain ⟨k, v⟩ := c
    intro n hm hn h
    cases n with
    | nil => exact Memory.eq_nil_of_read hm h
    | cons d n =>
      obtain ⟨l, w⟩ := d
      obtain ⟨hk, -, hbelow_m, hwf_m⟩ := (Memory.wf_cons_iff k v m).1 hm
      obtain ⟨hl, -, hbelow_n, hwf_n⟩ := (Memory.wf_cons_iff l w n).1 hn
      obtain rfl : k = l := le_antisymm (Memory.head_le_of_read_eq hn hm (h l hl).symm)
        (Memory.head_le_of_read_eq hm hn (h k hk))
      obtain rfl : v = w := by simpa using h k hk
      have hrest (a : Nat) (ha : a < cap) : Memory.read m a = Memory.read n a := by
        by_cases hka : k = a
        · subst hka
          rw [Memory.read_of_below hbelow_m, Memory.read_of_below hbelow_n]
        · simpa [hka] using h a ha
      rw [ih n hwf_m hwf_n hrest]

end Sys2Proof.Machine

/-! PROOFS. The writers of the result record (O25). -/

namespace Sys2Proof.Machine

/-- `r` keeps of `r₀` every result register that the instruction is not the writer of (10_state.md R14 to R20). -/
def KeepsOthers (i : Instr) (r₀ r : Record) : Prop :=
  ((∀ len, i ≠ .hieAcknackTc len) → r.isNack = r₀.isNack ∧ r.timeCorrection = r₀.timeCorrection) ∧
  ((∀ len, i ≠ .subsSync len) →
    r.asnLs4b = r₀.asnLs4b ∧ r.asnMs1b = r₀.asnMs1b ∧ r.joinPriority = r₀.joinPriority) ∧
  ((∀ len, i ≠ .subsTimeslot len) → r.tschTimeslotId = r₀.tschTimeslotId) ∧
  ((∀ len, i ≠ .sublChseq len) → r.channelHoppingSequenceId = r₀.channelHoppingSequenceId)

theorem keepsOthers_refl (i : Instr) (r : Record) : KeepsOthers i r r :=
  ⟨fun _ => ⟨rfl, rfl⟩, fun _ => ⟨rfl, rfl, rfl⟩, fun _ => rfl, fun _ => rfl⟩

theorem keepsOthers_recordWrite (i : Instr) (s : State) (r : Record) : KeepsOthers i r (recordWrite i s r) := by
  cases i with
  | hieAcknackTc len =>
    exact ⟨fun h => absurd rfl (h len), fun _ => ⟨rfl, rfl, rfl⟩, fun _ => rfl, fun _ => rfl⟩
  | subsSync len => exact ⟨fun _ => ⟨rfl, rfl⟩, fun h => absurd rfl (h len), fun _ => rfl, fun _ => rfl⟩
  | subsTimeslot len =>
    exact ⟨fun _ => ⟨rfl, rfl⟩, fun _ => ⟨rfl, rfl, rfl⟩, fun h => absurd rfl (h len), fun _ => rfl⟩
  | sublChseq len =>
    exact ⟨fun _ => ⟨rfl, rfl⟩, fun _ => ⟨rfl, rfl, rfl⟩, fun _ => rfl, fun h => absurd rfl (h len)⟩
  | _ => exact keepsOthers_refl _ r

/-- The effect on the result record: the instruction's write under the guard of `DISCARD`. -/
theorem effect_record (i : Instr) (s : State) :
    (effect i s).record = if s.discard then s.record else recordWrite i s s.record := by
  cases i with
  | start discard =>
    rw [effect]
    rcases s.startParse_cases discard with ⟨-, e⟩ | ⟨-, e⟩ <;> rw [e] <;> simp [recordWrite]
  | setDiscard discard => rw [effect]; split <;> simp [recordWrite]
  | _ => simp [effect, recordWrite]

/-- Whatever an instruction does, the result record stays or is what the instruction writes. -/
theorem record_of_exec {i : Instr} {s t : State} (h : exec i s = .next t) :
    t.record = s.record ∨ t.record = recordWrite i s s.record := by
  have heffect : (effect i s).record = s.record ∨ (effect i s).record = recordWrite i s s.record := by
    rw [effect_record]; split
    · exact .inl rfl
    · exact .inr rfl
  cases hi : i.isIE with
  | false =>
    rw [exec_ctrl i s hi] at h
    cases h
    exact heffect
  | true =>
    rw [exec_eq_next_ieNext s hi] at h
    cases h
    rcases ieNext_cases i s with ⟨-, e⟩ | ⟨-, -, -, e⟩ | ⟨-, -, e⟩
    · exact .inl (by rw [e]; rfl)
    · exact .inl (by rw [e]; rfl)
    · rw [e]; exact heffect

/-- Settles O25: the record stays or is the write of the one instruction. -/
theorem eachResultRegisterHasOneWriter : Obligations.EachResultRegisterHasOneWriter := by
  intro i s t h
  change KeepsOthers i s.record t.record
  rcases record_of_exec h with e | e
  · rw [e]; exact keepsOthers_refl i s.record
  · rw [e]; exact keepsOthers_recordWrite i s s.record

end Sys2Proof.Machine

/-! PROOFS. `STATUS`, the disabled parser and the state after reset (O48, O29, O50). -/

namespace Sys2Proof.Machine

theorem State.statusWord_state (s : State) : s.statusWord.extractLsb' 0 2 = s.state.code :=
  BitVec.extractLsb'_append_eq_right

theorem State.statusWord_err (s : State) : s.statusWord.extractLsb' 2 3 = errCode s.err :=
  (BitVec.extractLsb'_append_eq_of_le (by decide)).trans BitVec.extractLsb'_append_eq_right

theorem State.statusWord_endCause (s : State) : s.statusWord.extractLsb' 5 2 = endCauseCode s.endCause :=
  (BitVec.extractLsb'_append_eq_of_le (by decide)).trans <|
    (BitVec.extractLsb'_append_eq_of_le (by decide)).trans BitVec.extractLsb'_append_eq_right

/-- The bit above the three lower fields of `STATUS`. -/
theorem getLsbD_seven_of_fields (nested : BitVec 1) (cause : BitVec 2) (err : BitVec 3) (state : BitVec 2) :
    (nested ++ cause ++ err ++ state).getLsbD 7 = nested.getLsbD 0 := by
  simp only [BitVec.getLsbD_append]; rfl

theorem State.statusWord_nested (s : State) : s.statusWord.getLsbD 7 = (s.mlmeRem != 0) :=
  (getLsbD_seven_of_fields _ _ _ _).trans (by simp [State.nestedBit])

theorem ParserState.code_eq_two_iff (x : ParserState) : x.code = 2 ↔ x = .done := by
  cases x <;> simp [ParserState.code]

theorem ParserState.code_eq_three_iff (x : ParserState) : x.code = 3 ↔ x = .error := by
  cases x <;> simp [ParserState.code]

theorem errCode_eq_zero_iff (e : Option ParseFailure) : errCode e = 0 ↔ e = none := by
  cases e with
  | none => exact iff_of_true rfl rfl
  | some f => cases f <;> simp [errCode]

theorem endCauseCode_eq_zero_iff (e : Option EndCause) : endCauseCode e = 0 ↔ e = none := by
  cases e with
  | none => exact iff_of_true rfl rfl
  | some f => cases f <;> simp [endCauseCode]

/-- A host write of `STATUS` is ignored (10_state.md R29). -/
theorem State.writeReg_one (p : Params) (v : Nat) (s : State) : s.writeReg p 1 v = s := by
  rcases s.writeReg_cases p 1 v with ⟨-, e⟩ | ⟨-, h, -⟩ | ⟨-, -, e⟩
  · exact e
  · cases h
  · exact e

/-- Settles O48: each field is cut out of the word, and R31 (b) says when its number is nonzero. -/
theorem statusFields : Obligations.StatusFields := by
  refine ⟨fun s => ⟨?_, ?_, ?_, s.statusWord_nested⟩, fun p s v rest h => ?_, fun p s h => ⟨?_, ?_⟩⟩
  · rw [State.statusWord_state]; cases s.state <;> rfl
  · rw [State.statusWord_err]
    rcases s.err with _ | f
    · rfl
    · cases f <;> rfl
  · rw [State.statusWord_endCause]
    rcases s.endCause with _ | cause
    · rfl
    · cases cause <;> rfl
  · rw [turnStep_of_host p h]
    exact congrArg Host.Outcome.next (State.writeReg_one p v _)
  · rw [State.statusWord_err, State.statusWord_state, ne_eq, errCode_eq_zero_iff, ParserState.code_eq_three_iff]
    exact h.errIff
  · rw [State.statusWord_endCause, State.statusWord_state, ne_eq, endCauseCode_eq_zero_iff,
      ParserState.code_eq_two_iff]
    exact h.endCauseIff

/-- Settles O29: outside `RUN` the parser's turn is the identity. -/
theorem parserIsDisabledOutsideRun : Obligations.ParserIsDisabledOutsideRun := fun p s hr =>
  ⟨fun h => by rw [turnStep_of_nil p h, parserNext_of_not_run p.ids hr],
    fun rest h => by rw [turnStep_of_parser p h]; exact congrArg _ (parserNext_of_not_run p.ids hr)⟩

/-- Settles O50: each value is `State.reset`'s own, and the draw is `State.takeReset_zero`. -/
theorem resetStateHoldsTheControlValues : Obligations.ResetStateHoldsTheControlValues :=
  ⟨rfl, rfl, rfl, rfl, rfl, rfl, rfl, rfl, rfl, rfl, fun p => (State.takeReset_zero p).symm⟩

end Sys2Proof.Machine

/-! PROOFS. The reads of the parser: their value, and that none lies outside the valid bytes (O7, O37). -/

namespace Sys2Proof.Machine

theorem Memory.littleEndian_one (m : Memory) (a : Nat) : m.littleEndian a 1 = (m.read a).toNat := by
  rw [Memory.littleEndian_succ, Memory.littleEndian_zero, mul_zero, add_zero]

theorem Memory.littleEndian_two (m : Memory) (a : Nat) :
    m.littleEndian a 2 = (m.read a).toNat + 256 * (m.read (a + 1)).toNat := by
  rw [Memory.littleEndian_succ, Memory.littleEndian_one]

theorem Memory.littleEndian_four (m : Memory) (a : Nat) :
    m.littleEndian a 4 =
      (m.read a).toNat + 256 * (m.read (a + 1)).toNat + 65536 * (m.read (a + 2)).toNat +
        16777216 * (m.read (a + 3)).toNat := by
  rw [Memory.littleEndian_succ, Memory.littleEndian_succ, Memory.littleEndian_two]
  ring

/-- Settles O7: inside the valid bytes a read is the little-endian value of its width. -/
theorem memReadIsLittleEndian : Obligations.MemReadIsLittleEndian := fun s a =>
  ⟨fun h => by rw [memRead_of_le h, Memory.littleEndian_one],
    fun h => by rw [memRead_of_le h, Memory.littleEndian_two],
    fun h => by rw [memRead_of_le h, Memory.littleEndian_four]⟩

/-- No turn of any agent stops the machine, in any state. -/
theorem turnStep_eq_next (p : Params) (s : State) : ∃ t, turnStep p s = .next t := by
  cases hs : s.turns with
  | nil => exact ⟨_, turnStep_of_nil p hs⟩
  | cons turn rest =>
    cases turn with
    | parser => exact ⟨_, turnStep_of_parser p hs⟩
    | host c =>
      obtain ⟨t, ht, -⟩ := hostStep_hostMove p c { s with turns := rest }
      exact ⟨t, (turnStep_of_host p hs).trans ht⟩
    | reset d => exact ⟨_, turnStep_of_reset p hs⟩

/-- Settles O37: a read outside the valid bytes is the named fault, and no turn ends in one. -/
theorem noReadOutsideTheValidBytes : Obligations.NoReadOutsideTheValidBytes :=
  ⟨fun _ _ _ => memRead_of_lt, turnStep_eq_next⟩

end Sys2Proof.Machine

/-! PROOFS. What no instruction writes, and what stays once a parse is over (O26, O45). -/

namespace Sys2Proof.Machine

/-- Of the effects only those of the two writes of `CTRL` change `DISCARD` (10_state.md R23). -/
theorem effect_discard_of_isIE {i : Instr} (hi : i.isIE = true) (s : State) : (effect i s).discard = s.discard := by
  cases i with
  | start _ => cases hi
  | setDiscard _ => cases hi
  | _ => simp [effect]

/-- An IE writes none of the host's inputs, whether it fails or has its effect (20_memory.md R45). -/
theorem ieNext_inputs {i : Instr} (hi : i.isIE = true) (s : State) :
    (ieNext i s).buf = s.buf ∧ (ieNext i s).len = s.len ∧ (ieNext i s).discard = s.discard := by
  rcases ieNext_cases i s with ⟨-, e⟩ | ⟨-, -, -, e⟩ | ⟨-, -, e⟩
  · rw [e]; exact ⟨rfl, rfl, rfl⟩
  · rw [e]; exact ⟨rfl, rfl, rfl⟩
  · obtain ⟨hbuf, hlen, -⟩ := effect_frame i s
    rw [e]; exact ⟨hbuf, hlen, effect_discard_of_isIE hi s⟩

/-- Settles O26: an IE leaves all three inputs, a write of `CTRL` leaves the buffer and `LEN`. -/
theorem noInstructionWritesBufferOrLen : Obligations.NoInstructionWritesBufferOrLen := by
  intro i s t h
  cases hi : i.isIE with
  | true =>
    rw [exec_eq_next_ieNext s hi] at h
    cases h
    obtain ⟨hbuf, hlen, hdiscard⟩ := ieNext_inputs hi s
    exact ⟨hbuf, hlen, fun _ => hdiscard⟩
  | false =>
    rw [exec_ctrl i s hi] at h
    cases h
    obtain ⟨hbuf, hlen, -⟩ := effect_frame i s
    exact ⟨hbuf, hlen, nofun⟩

/-- A host read of a register adds its reply and changes nothing of the block (45_host_commands.md R155). -/
theorem turnStep_of_readReg (p : Params) {s : State} {n : Nat} {rest : List Turn}
    (h : s.turns = .host (.readReg n) :: rest) :
    turnStep p s =
      .next { s with turns := rest, replies := s.replies ++ [.reg n (State.readReg { s with turns := rest } n)] } :=
  turnStep_of_host p h

/-- A host read of the buffer adds its reply and changes nothing of the block (45_host_commands.md R154). -/
theorem turnStep_of_readBuf (p : Params) {s : State} {a : Nat} {rest : List Turn}
    (h : s.turns = .host (.readBuf a) :: rest) :
    turnStep p s = .next { s with turns := rest, replies := s.replies ++ [.byte a (s.buf.load p.bufCap a)] } :=
  turnStep_of_host p h

/-- Settles O45: the parser is disabled, and a read adds its reply only. -/
theorem resultsStayAfterCompletion : Obligations.ResultsStayAfterCompletion := by
  intro p s rest n a hover
  have hr : s.state ≠ .run := by rcases hover with h | h <;> rw [h] <;> decide
  obtain ⟨-, hparser⟩ := parserIsDisabledOutsideRun p s hr
  exact ⟨hparser rest, fun h => ⟨_, turnStep_of_readReg p h⟩, fun h => ⟨_, turnStep_of_readBuf p h⟩⟩

end Sys2Proof.Machine

/-! PROOFS. The descriptor layouts: the unpackers and the packers as arithmetic, and that they undo each other
(O3, O4). -/

namespace Sys2Proof

open Laws.RowWord (packHdr_toNat packPld_toNat packSubs_toNat packSubl_toNat)

/-! ## The unpackers (30_encoding.md R62 to R65) -/

theorem typeBit_eq_decide (d : Desc) : typeBit d = decide (32768 ≤ d.toNat) := by
  rw [show typeBit d = d.msb from (BitVec.msb_eq_getLsbD_last d).symm, BitVec.msb_eq_decide]

theorem typeBit_eq_false_iff (d : Desc) : typeBit d = false ↔ d.toNat < 32768 := by
  rw [typeBit_eq_decide, decide_eq_false_iff_not, not_le]

theorem typeBit_eq_true_iff (d : Desc) : typeBit d = true ↔ 32768 ≤ d.toNat := by
  rw [typeBit_eq_decide, decide_eq_true_iff]

/-- A field of a descriptor as arithmetic: `n` bits from bit `k` up. -/
theorem toNat_field (d : Desc) (k n : Nat) : (d.extractLsb' k n).toNat = d.toNat / 2 ^ k % 2 ^ n := by
  rw [BitVec.extractLsb'_toNat, Nat.shiftRight_eq_div_pow]

/-- The lowest field. -/
theorem toNat_low_field (d : Desc) (n : Nat) : (d.extractLsb' 0 n).toNat = d.toNat % 2 ^ n := by
  rw [toNat_field, pow_zero, Nat.div_one]

theorem unpackHdr_len_toNat (d : Desc) : (unpackHdr d).1.toNat = d.toNat % 128 :=
  toNat_low_field d 7

theorem unpackHdr_id_toNat (d : Desc) : (unpackHdr d).2.toNat = d.toNat / 128 % 256 := toNat_field d 7 8

theorem unpackPld_len_toNat (d : Desc) : (unpackPld d).1.toNat = d.toNat % 2048 :=
  toNat_low_field d 11

theorem unpackPld_id_toNat (d : Desc) : (unpackPld d).2.toNat = d.toNat / 2048 % 16 := toNat_field d 11 4

theorem unpackSubs_len_toNat (d : Desc) : (unpackSubs d).1.toNat = d.toNat % 256 :=
  toNat_low_field d 8

theorem unpackSubs_id_toNat (d : Desc) : (unpackSubs d).2.toNat = d.toNat / 256 % 128 := toNat_field d 8 7

/-- Settles O3: each field is its quotient and remainder, and the examples are evaluated. -/
theorem unpackersAreTheArithmetic : Obligations.UnpackersAreTheArithmetic :=
  ⟨fun d => ⟨typeBit_eq_decide d, unpackHdr_len_toNat d, unpackHdr_id_toNat d, unpackPld_len_toNat d,
      unpackPld_id_toNat d, unpackSubs_len_toNat d, unpackSubs_id_toNat d, rfl⟩,
    by decide, by decide, by decide, by decide⟩

/-! ## Unpacking what was packed (R66) -/

theorem typeBit_packHdr (id : BitVec 8) (len : BitVec 7) : typeBit (packHdr id len) = false := by
  rw [typeBit_eq_false_iff, packHdr_toNat]; omega

theorem typeBit_packPld (id : BitVec 4) (len : BitVec 11) : typeBit (packPld id len) = true := by
  rw [typeBit_eq_true_iff, packPld_toNat]; omega

theorem typeBit_packSubs (id : BitVec 7) (len : BitVec 8) : typeBit (packSubs id len) = false := by
  rw [typeBit_eq_false_iff, packSubs_toNat]; omega

theorem typeBit_packSubl (id : BitVec 4) (len : BitVec 11) : typeBit (packSubl id len) = true := typeBit_packPld id len

theorem unpackHdr_packHdr (id : BitVec 8) (len : BitVec 7) : unpackHdr (packHdr id len) = (len, id) := by
  refine Prod.ext (BitVec.eq_of_toNat_eq ?_) (BitVec.eq_of_toNat_eq ?_)
  · rw [unpackHdr_len_toNat, packHdr_toNat]; dsimp only; omega
  · rw [unpackHdr_id_toNat, packHdr_toNat]; dsimp only; omega

theorem unpackPld_packPld (id : BitVec 4) (len : BitVec 11) : unpackPld (packPld id len) = (len, id) := by
  refine Prod.ext (BitVec.eq_of_toNat_eq ?_) (BitVec.eq_of_toNat_eq ?_)
  · rw [unpackPld_len_toNat, packPld_toNat]; dsimp only; omega
  · rw [unpackPld_id_toNat, packPld_toNat]; dsimp only; omega

theorem unpackSubs_packSubs (id : BitVec 7) (len : BitVec 8) : unpackSubs (packSubs id len) = (len, id) := by
  refine Prod.ext (BitVec.eq_of_toNat_eq ?_) (BitVec.eq_of_toNat_eq ?_)
  · rw [unpackSubs_len_toNat, packSubs_toNat]; dsimp only; omega
  · rw [unpackSubs_id_toNat, packSubs_toNat]; dsimp only; omega

theorem unpackSubl_packSubl (id : BitVec 4) (len : BitVec 11) : unpackSubl (packSubl id len) = (len, id) :=
  unpackPld_packPld id len

/-! ## Packing what was unpacked: the type bit fixes the layout, the two fields are all the other bits (R60) -/

theorem packHdr_unpackHdr {d : Desc} (h : typeBit d = false) : packHdr (unpackHdr d).2 (unpackHdr d).1 = d := by
  rw [typeBit_eq_false_iff] at h
  refine BitVec.eq_of_toNat_eq ?_
  rw [packHdr_toNat, unpackHdr_id_toNat, unpackHdr_len_toNat]; omega

theorem packPld_unpackPld {d : Desc} (h : typeBit d = true) : packPld (unpackPld d).2 (unpackPld d).1 = d := by
  rw [typeBit_eq_true_iff] at h
  refine BitVec.eq_of_toNat_eq ?_
  rw [packPld_toNat, unpackPld_id_toNat, unpackPld_len_toNat]; omega

theorem packSubs_unpackSubs {d : Desc} (h : typeBit d = false) : packSubs (unpackSubs d).2 (unpackSubs d).1 = d := by
  rw [typeBit_eq_false_iff] at h
  refine BitVec.eq_of_toNat_eq ?_
  rw [packSubs_toNat, unpackSubs_id_toNat, unpackSubs_len_toNat]; omega

theorem packSubl_unpackSubl {d : Desc} (h : typeBit d = true) : packSubl (unpackSubl d).2 (unpackSubl d).1 = d :=
  packPld_unpackPld h

/-- The two bytes of a descriptor, the low one first (20_memory.md R41). -/
theorem descBytes_toNat (d : Desc) : (descBytes d).map BitVec.toNat = [d.toNat % 256, d.toNat / 256] := by
  have hlo : (d.extractLsb' 0 8).toNat = d.toNat % 256 := toNat_low_field d 8
  have hhi : (d.extractLsb' 8 8).toNat = d.toNat / 256 :=
    (toNat_field d 8 8).trans (Nat.mod_eq_of_lt (by have := d.isLt; omega))
  rw [descBytes, List.map_cons, List.map_cons, List.map_nil, hlo, hhi]

/-- Settles O4: the values of the packed words with each field reduced to its width, and the round trip per layout. -/
theorem packersAreTheArithmetic : Obligations.PackersAreTheArithmetic := by
  refine ⟨fun id len => ⟨?_, ?_, ?_, ?_⟩, descBytes_toNat,
    fun id len => ⟨unpackHdr_packHdr id len, typeBit_packHdr id len⟩,
    fun id len => ⟨unpackPld_packPld id len, typeBit_packPld id len⟩,
    fun id len => ⟨unpackSubs_packSubs id len, typeBit_packSubs id len⟩,
    fun id len => ⟨unpackSubl_packSubl id len, typeBit_packSubl id len⟩⟩
  · rw [packHdr_toNat, BitVec.toNat_ofNat, BitVec.toNat_ofNat, mul_comm]
  · rw [packPld_toNat, BitVec.toNat_ofNat, BitVec.toNat_ofNat, mul_comm 2048]
  · rw [packSubs_toNat, BitVec.toNat_ofNat, BitVec.toNat_ofNat, mul_comm]
  · rw [packSubl_toNat, BitVec.toNat_ofNat, BitVec.toNat_ofNat, mul_comm 2048]

end Sys2Proof

/-! PROOFS. The decoder and the encoder: the rows of the map, and that the two undo each other (O1, O2, O6). -/

namespace Sys2Proof

/-! ## Mode and type bit fix the layout (40_walker.md R93) -/

theorem decodeDescriptor_header (p : Ids) {d : Desc} (h : typeBit d = false) :
    decodeDescriptor p .notNested d = headerRow p (unpackHdr d).2 (unpackHdr d).1 := by
  simp only [decodeDescriptor, h]

theorem decodeDescriptor_payload (p : Ids) {d : Desc} (h : typeBit d = true) :
    decodeDescriptor p .notNested d = payloadRow (unpackPld d).2 (unpackPld d).1 := by
  simp only [decodeDescriptor, h]

theorem decodeDescriptor_short (p : Ids) {d : Desc} (h : typeBit d = false) :
    decodeDescriptor p .nested d = shortRow p (unpackSubs d).2 (unpackSubs d).1 := by
  simp only [decodeDescriptor, h]

theorem decodeDescriptor_long (p : Ids) {d : Desc} (h : typeBit d = true) :
    decodeDescriptor p .nested d = longRow p (unpackSubl d).2 (unpackSubl d).1 := by
  simp only [decodeDescriptor, h]

/-! ## A packed descriptor decodes to the row its id selects -/

theorem decode_packHdr (p : Ids) (id : BitVec 8) (len : BitVec 7) :
    decode p (.descriptor .notNested (packHdr id len)) = headerRow p id len := by
  rw [decode, decodeDescriptor_header p (typeBit_packHdr id len), unpackHdr_packHdr]

theorem decode_packPld (p : Ids) (id : BitVec 4) (len : BitVec 11) :
    decode p (.descriptor .notNested (packPld id len)) = payloadRow id len := by
  rw [decode, decodeDescriptor_payload p (typeBit_packPld id len), unpackPld_packPld]

theorem decode_packSubs (p : Ids) (id : BitVec 7) (len : BitVec 8) :
    decode p (.descriptor .nested (packSubs id len)) = shortRow p id len := by
  rw [decode, decodeDescriptor_short p (typeBit_packSubs id len), unpackSubs_packSubs]

theorem decode_packSubl (p : Ids) (id : BitVec 4) (len : BitVec 11) :
    decode p (.descriptor .nested (packSubl id len)) = longRow p id len := by
  rw [decode, decodeDescriptor_long p (typeBit_packSubl id len), unpackSubl_packSubl]

theorem decode_packCtrl_start (p : Ids) (discard : Bool) :
    decode p (.ctrlWrite (packCtrl discard true)) = .start discard := by
  cases discard <;> rfl

theorem decode_packCtrl_setDiscard (p : Ids) (discard : Bool) :
    decode p (.ctrlWrite (packCtrl discard false)) = .setDiscard discard := by
  cases discard <;> rfl

/-! ## Which instructions are well-formed (R68) -/

theorem wf_hieOther_iff (p : Ids) (id : BitVec 8) (len : BitVec 7) :
    (Instr.hieOther id len).wf p = true ↔
      id ≠ p.acknackTc ∧ id ≠ Config.hdrIdListTerm2 ∧ id ≠ Config.hdrIdListTerm1 := by
  simp [Instr.wf, Ids.namesHeader, and_assoc]

theorem wf_pieOther_iff (p : Ids) (id : BitVec 4) (len : BitVec 11) :
    (Instr.pieOther id len).wf p = true ↔ id ≠ Config.pldGidMlme := by
  simp [Instr.wf]

theorem wf_subsOther_iff (p : Ids) (id : BitVec 7) (len : BitVec 8) :
    (Instr.subsOther id len).wf p = true ↔ id ≠ p.sync ∧ id ≠ p.timeslot ∧ id ≠ p.slotframeLink := by
  simp [Instr.wf, Ids.namesShort, and_assoc]

theorem wf_sublOther_iff (p : Ids) (id : BitVec 4) (len : BitVec 11) :
    (Instr.sublOther id len).wf p = true ↔ id ≠ p.chseq := by
  simp [Instr.wf]

/-- The round trip from the instruction: the word's layout is the row's, and by R6's constraints no earlier row of the
layout takes the row's id. -/
theorem decode_encode {p : Ids} (hp : p.valid) {i : Instr} (hi : i.wf p = true) : decode p (encode p i) = i := by
  obtain ⟨hack2, hack1, hsync, hlink, hlink'⟩ := hp
  cases i with
  | hieAcknackTc len => exact (decode_packHdr p _ len).trans (if_pos rfl)
  | hieListTerm2 len => simp [encode, decode_packHdr, headerRow, hack2.symm]
  | hieListTerm1 len =>
    have h21 : Config.hdrIdListTerm1 ≠ Config.hdrIdListTerm2 := by decide
    simp [encode, decode_packHdr, headerRow, hack1.symm, h21]
  | hieOther id len =>
    rw [wf_hieOther_iff] at hi
    simp [encode, decode_packHdr, headerRow, hi]
  | pieMlme len => exact (decode_packPld p _ len).trans (if_pos rfl)
  | pieOther id len =>
    exact (decode_packPld p id len).trans (if_neg ((wf_pieOther_iff p id len).1 hi))
  | subsSync len => exact (decode_packSubs p _ len).trans (if_pos rfl)
  | subsTimeslot len => simp [encode, decode_packSubs, shortRow, hsync.symm]
  | subsSlotframeLink len => simp [encode, decode_packSubs, shortRow, hlink, hlink']
  | subsOther id len =>
    rw [wf_subsOther_iff] at hi
    simp [encode, decode_packSubs, shortRow, hi]
  | sublChseq len => exact (decode_packSubl p _ len).trans (if_pos rfl)
  | sublOther id len =>
    exact (decode_packSubl p id len).trans (if_neg ((wf_sublOther_iff p id len).1 hi))
  | start discard => exact decode_packCtrl_start p discard
  | setDiscard discard => exact decode_packCtrl_setDiscard p discard

/-- Settles O1: `decode_encode`. -/
theorem decodeOfEncodeIsTheInstruction : Obligations.DecodeOfEncodeIsTheInstruction :=
  fun _ hp _ hi => decode_encode hp hi

/-! ## Whatever row an id selects is well-formed and encodes to the packed fields -/

theorem encode_and_wf_headerRow (p : Ids) (id : BitVec 8) (len : BitVec 7) :
    encode p (headerRow p id len) = .descriptor .notNested (packHdr id len) ∧ (headerRow p id len).wf p = true := by
  unfold headerRow
  split_ifs with hack h2 h1
  · subst hack; exact ⟨rfl, rfl⟩
  · subst h2; exact ⟨rfl, rfl⟩
  · subst h1; exact ⟨rfl, rfl⟩
  · exact ⟨rfl, (wf_hieOther_iff p id len).2 ⟨hack, h2, h1⟩⟩

theorem encode_and_wf_payloadRow (p : Ids) (id : BitVec 4) (len : BitVec 11) :
    encode p (payloadRow id len) = .descriptor .notNested (packPld id len) ∧ (payloadRow id len).wf p = true := by
  unfold payloadRow
  split_ifs with h
  · subst h; exact ⟨rfl, rfl⟩
  · exact ⟨rfl, (wf_pieOther_iff p id len).2 h⟩

theorem encode_and_wf_shortRow (p : Ids) (id : BitVec 7) (len : BitVec 8) :
    encode p (shortRow p id len) = .descriptor .nested (packSubs id len) ∧ (shortRow p id len).wf p = true := by
  unfold shortRow
  split_ifs with hsync hslot hlink
  · subst hsync; exact ⟨rfl, rfl⟩
  · subst hslot; exact ⟨rfl, rfl⟩
  · subst hlink; exact ⟨rfl, rfl⟩
  · exact ⟨rfl, (wf_subsOther_iff p id len).2 ⟨hsync, hslot, hlink⟩⟩

theorem encode_and_wf_longRow (p : Ids) (id : BitVec 4) (len : BitVec 11) :
    encode p (longRow p id len) = .descriptor .nested (packSubl id len) ∧ (longRow p id len).wf p = true := by
  unfold longRow
  split_ifs with h
  · subst h; exact ⟨rfl, rfl⟩
  · exact ⟨rfl, (wf_sublOther_iff p id len).2 h⟩

/-- The round trip from a descriptor: the row keeps the mode and both fields (R60, R69). -/
theorem encode_and_wf_decodeDescriptor (p : Ids) (m : Mode) (d : Desc) :
    encode p (decodeDescriptor p m d) = .descriptor m d ∧ (decodeDescriptor p m d).wf p = true := by
  cases m <;> cases h : typeBit d
  case notNested.false =>
    rw [decodeDescriptor_header p h]
    simpa only [packHdr_unpackHdr h] using encode_and_wf_headerRow p (unpackHdr d).2 (unpackHdr d).1
  case notNested.true =>
    rw [decodeDescriptor_payload p h]
    simpa only [packPld_unpackPld h] using encode_and_wf_payloadRow p (unpackPld d).2 (unpackPld d).1
  case nested.false =>
    rw [decodeDescriptor_short p h]
    simpa only [packSubs_unpackSubs h] using encode_and_wf_shortRow p (unpackSubs d).2 (unpackSubs d).1
  case nested.true =>
    rw [decodeDescriptor_long p h]
    simpa only [packSubl_unpackSubl h] using encode_and_wf_longRow p (unpackSubl d).2 (unpackSubl d).1

/-- The round trip from a value of `CTRL`, each of the four evaluated (10_state.md R23). -/
theorem encode_and_wf_decodeCtrl (p : Ids) (v : BitVec 2) :
    encode p (decodeCtrl v) = .ctrlWrite v ∧ (decodeCtrl v).wf p = true := by
  have hword : ∀ v : BitVec 2, packCtrl (v.getLsbD 1) (v.getLsbD 0) = v := by decide
  unfold decodeCtrl
  split_ifs with hstart
  · exact ⟨congrArg Code.ctrlWrite (by simpa only [hstart] using hword v), rfl⟩
  · exact ⟨congrArg Code.ctrlWrite (by simpa only [hstart] using hword v), rfl⟩

/-- Settles O2: a descriptor by its layout, a `CTRL` value by its two bits. -/
theorem encodeOfDecodeIsTheWord : Obligations.EncodeOfDecodeIsTheWord := by
  intro p c
  cases c with
  | descriptor m d => exact encode_and_wf_decodeDescriptor p m d
  | ctrlWrite v => exact encode_and_wf_decodeCtrl p v

/-- Settles O6: the decoder evaluated on the written words. -/
theorem writtenWordsDecode : Obligations.WrittenWordsDecode :=
  ⟨rfl, rfl, rfl, rfl, rfl, rfl, rfl, rfl, rfl, rfl, rfl, rfl, rfl⟩

end Sys2Proof

/-! PROOFS. The descriptors of each row (O5), from the two round trips. -/

namespace Sys2Proof

open Laws.RowWord (packHdr_toNat packPld_toNat packSubs_toNat)

/-- A descriptor decodes to an instruction exactly when it is that instruction's word and the instruction is
well-formed: the two round trips in one. -/
theorem decodeDescriptor_eq_iff {p : Ids} (hp : p.valid) (m : Mode) (d : Desc) (i : Instr) :
    decodeDescriptor p m d = i ↔ encode p i = .descriptor m d ∧ i.wf p = true := by
  constructor
  · rintro rfl; exact encode_and_wf_decodeDescriptor p m d
  · rintro ⟨hword, hi⟩
    have h := decode_encode hp hi
    rwa [hword] at h

/-! ## A packed descriptor by its value (R60) -/

theorem descriptor_packHdr_eq_iff (m : Mode) (id : BitVec 8) (len : BitVec 7) (d : Desc) :
    Code.descriptor m (packHdr id len) = .descriptor m d ↔ d.toNat = id.toNat * 128 + len.toNat := by
  rw [Code.descriptor.injEq, eq_comm (b := d), BitVec.toNat_eq, packHdr_toNat, mul_comm]
  simp

theorem descriptor_packPld_eq_iff (m : Mode) (id : BitVec 4) (len : BitVec 11) (d : Desc) :
    Code.descriptor m (packPld id len) = .descriptor m d ↔ d.toNat = 0x8000 + id.toNat * 2048 + len.toNat := by
  rw [Code.descriptor.injEq, eq_comm (b := d), BitVec.toNat_eq, packPld_toNat, mul_comm 2048]
  simp

theorem descriptor_packSubs_eq_iff (m : Mode) (id : BitVec 7) (len : BitVec 8) (d : Desc) :
    Code.descriptor m (packSubs id len) = .descriptor m d ↔ d.toNat = id.toNat * 256 + len.toNat := by
  rw [Code.descriptor.injEq, eq_comm (b := d), BitVec.toNat_eq, packSubs_toNat, mul_comm]
  simp

theorem descriptor_packSubl_eq_iff (m : Mode) (id : BitVec 4) (len : BitVec 11) (d : Desc) :
    Code.descriptor m (packSubl id len) = .descriptor m d ↔ d.toNat = 0x8000 + id.toNat * 2048 + len.toNat :=
  descriptor_packPld_eq_iff m id len d

/-- A row with an id of its own has well-formed instructions only: its word alone decides. -/
theorem decodeDescriptor_eq_named_iff {p : Ids} (hp : p.valid) (m : Mode) (d : Desc) {i : Instr} (hi : i.wf p = true) :
    decodeDescriptor p m d = i ↔ encode p i = .descriptor m d := by
  rw [decodeDescriptor_eq_iff hp, and_iff_left hi]

/-- Settles O5: a row with an id of its own by its word, an "other" row by its word and the ids its layout names. -/
theorem eachRowStandsForItsDescriptors : Obligations.EachRowStandsForItsDescriptors := by
  intro p hp d
  have named (m : Mode) {i : Instr} (hi : i.wf p = true) := decodeDescriptor_eq_named_iff hp m d hi
  have other (m : Mode) (i : Instr) := decodeDescriptor_eq_iff hp m d i
  refine ⟨fun len => ?_, fun len => ?_, fun len => ?_, fun id len => ?_, fun len => ?_, fun id len => ?_,
    fun len => ?_, fun len => ?_, fun len => ?_, fun id len => ?_, fun len => ?_, fun id len => ?_⟩
  · exact (named .notNested rfl).trans (descriptor_packHdr_eq_iff _ _ len d)
  · exact (named .notNested rfl).trans (descriptor_packHdr_eq_iff _ _ len d)
  · exact (named .notNested rfl).trans (descriptor_packHdr_eq_iff _ _ len d)
  · exact (other .notNested _).trans (and_congr (descriptor_packHdr_eq_iff _ id len d) (wf_hieOther_iff p id len))
  · exact (named .notNested rfl).trans (descriptor_packPld_eq_iff _ _ len d)
  · exact (other .notNested _).trans (and_congr (descriptor_packPld_eq_iff _ id len d) (wf_pieOther_iff p id len))
  · exact (named .nested rfl).trans (descriptor_packSubs_eq_iff _ _ len d)
  · exact (named .nested rfl).trans (descriptor_packSubs_eq_iff _ _ len d)
  · exact (named .nested rfl).trans (descriptor_packSubs_eq_iff _ _ len d)
  · exact (other .nested _).trans (and_congr (descriptor_packSubs_eq_iff _ id len d) (wf_subsOther_iff p id len))
  · exact (named .nested rfl).trans (descriptor_packSubl_eq_iff _ _ len d)
  · exact (other .nested _).trans (and_congr (descriptor_packSubl_eq_iff _ id len d) (wf_sublOther_iff p id len))

end Sys2Proof

/-! PROOFS. The time-correction field (O51). -/

namespace Sys2Proof.Machine

/-- The flag stands where a descriptor has its type bit: bit 15 (30_encoding.md R67). -/
theorem isNackOf_eq_decide (f : BitVec 16) : isNackOf f = decide (32768 ≤ f.toNat) := typeBit_eq_decide f

/-- Extending a sign changes no value: the drift is that of the low 12 bits (40_walker.md R97). -/
theorem timeCorrectionOf_toInt (f : BitVec 16) : (timeCorrectionOf f).toInt = (f.toNat % 4096 : Int).bmod 4096 := by
  have hfield : (f.extractLsb' 0 12).toNat = f.toNat % 4096 := toNat_low_field f 12
  rw [timeCorrectionOf, BitVec.toInt_signExtend_of_le (by decide), BitVec.toInt_eq_toNat_bmod, hfield]
  rfl

/-- The value of the field that a flag, three ignored bits and a drift make. -/
theorem toNat_fieldOf (nack : Bool) {junk low : Nat} (hj : junk < 8) (hl : low < 4096) :
    (BitVec.ofNat 16 (nack.toNat * 32768 + junk * 4096 + low)).toNat = nack.toNat * 32768 + junk * 4096 + low := by
  have hnack := nack.toNat_le
  rw [BitVec.toNat_ofNat, Nat.mod_eq_of_lt (by omega)]

/-- Settles O51: the flag is the field's top bit, and the drift modulo 4096 is the drift. -/
theorem timeCorrectionField : Obligations.TimeCorrectionField := by
  refine ⟨fun tc nack junk hlo hhi hj => ?_, by decide⟩
  have hl : (tc % 4096).toNat < 4096 := by omega
  constructor
  · rw [isNackOf_eq_decide, toNat_fieldOf nack hj hl]
    cases nack with
    | false => exact decide_eq_false (by simp only [Bool.toNat_false]; omega)
    | true => exact decide_eq_true (by simp only [Bool.toNat_true]; omega)
  · have hlow : ((nack.toNat * 32768 + junk * 4096 + (tc % 4096).toNat : Nat) : Int) % 4096 = tc % 4096 := by omega
    have hemod : (tc % 4096).bmod 4096 = tc.bmod 4096 := Int.emod_bmod tc 4096
    rw [timeCorrectionOf_toInt, toNat_fieldOf nack hj hl, hlow, hemod]
    exact Int.bmod_eq_of_le (by omega) (by omega)

end Sys2Proof.Machine

/-! SUPPORT. What the effect of an IE is, by the layout it belongs to, and the parser's turn of a running parse. -/

namespace Sys2Proof.Machine

theorem State.writeRecord_self (s : State) : s.writeRecord (fun r => r) = s := by
  unfold State.writeRecord; split <;> rfl

/-- A sub-IE has the effect of its record write and the nested tail (40_walker.md R94). -/
theorem effect_of_metIn_nested {i : Instr} (h : metIn i = some .nested) (s : State) :
    effect i s = State.nestedTail i.declaredLen (s.cursor + 2) (s.writeRecord (recordWrite i s)) := by
  have skipped (len : Nat) : s.nestedTail len (s.cursor + 2) =
      State.nestedTail len (s.cursor + 2) (s.writeRecord fun r => r) := by rw [s.writeRecord_self]
  cases i with
  | subsSync len => rfl
  | subsTimeslot len => rfl
  | subsSlotframeLink len => exact skipped _
  | subsOther id len => exact skipped _
  | sublChseq len => rfl
  | sublOther id len => exact skipped _
  | _ => cases h

/-- What the effect of an IE can be. A top-level IE ends the parse, opens a group or is passed (40_walker.md R95, R100);
a sub-IE writes its registers, and then overruns its group, closes it or leaves the rest of it (R94). -/
inductive EffectMove (s : State) : Instr → State → Prop
  | listTerm (len : BitVec 7) :
    EffectMove s (.hieListTerm2 len) (s.finish .listTerm (s.afterIE len.toNat))
  | openGroup (len : BitVec 11) :
    EffectMove s (.pieMlme len) (State.advance (s.cursor + 2) { s with mlmeRem := len })
  | pass (i : Instr) (hm : metIn i = some .notNested) (hterm : ∀ len, i ≠ .hieListTerm2 len)
      (hmlme : ∀ len, i ≠ .pieMlme len) :
    EffectMove s i (State.advance (s.afterIE i.declaredLen) (s.writeRecord (recordWrite i s)))
  | overrun (i : Instr) (hm : metIn i = some .nested) (hlt : s.mlmeRem.toNat < 2 + i.declaredLen) :
    EffectMove s i (State.raise .overrunNestedGroup (s.writeRecord (recordWrite i s)))
  | closeGroup (i : Instr) (hm : metIn i = some .nested) (heq : s.mlmeRem.toNat = 2 + i.declaredLen) :
    EffectMove s i
      (State.finish .groupDone (s.afterIE i.declaredLen) { s.writeRecord (recordWrite i s) with mlmeRem := 0 })
  | keepGroup (i : Instr) (hm : metIn i = some .nested) (hlt : 2 + i.declaredLen < s.mlmeRem.toNat) :
    EffectMove s i (State.advance (s.afterIE i.declaredLen)
      { s.writeRecord (recordWrite i s) with mlmeRem := BitVec.ofNat 11 (s.mlmeRem.toNat - (2 + i.declaredLen)) })

theorem effectMove_of_metIn_nested {i : Instr} (h : metIn i = some .nested) (s : State) :
    EffectMove s i (effect i s) := by
  have hbudget := s.writeRecord_mlmeRem (recordWrite i s)
  rw [effect_of_metIn_nested h]
  rcases State.nestedTail_cases i.declaredLen (s.cursor + 2) (s.writeRecord (recordWrite i s)) with
    ⟨hlt, e⟩ | ⟨heq, e⟩ | ⟨hlt, e⟩
  · rw [e]; exact .overrun i h (hbudget ▸ hlt)
  · rw [e]; exact .closeGroup i h (hbudget ▸ heq)
  · rw [e, hbudget]; exact .keepGroup i h (hbudget ▸ hlt)

theorem effectMove_of_metIn_notNested {i : Instr} (h : metIn i = some .notNested) (s : State) :
    EffectMove s i (effect i s) := by
  have skipped (hterm : ∀ len, i ≠ .hieListTerm2 len) (hmlme : ∀ len, i ≠ .pieMlme len)
      (hskip : recordWrite i s = fun r => r) : EffectMove s i (s.advance (s.afterIE i.declaredLen)) := by
    have hpass := EffectMove.pass (s := s) i h hterm hmlme
    rwa [hskip, s.writeRecord_self] at hpass
  cases i with
  | hieAcknackTc len => exact .pass _ h nofun nofun
  | hieListTerm2 len => exact .listTerm len
  | hieListTerm1 len => exact skipped nofun nofun rfl
  | hieOther id len => exact skipped nofun nofun rfl
  | pieMlme len => exact .openGroup len
  | pieOther id len => exact skipped nofun nofun rfl
  | _ => cases h

/-- The effect of every IE is one of these. -/
theorem effectMove_effect {i : Instr} {m : Mode} (h : metIn i = some m) (s : State) : EffectMove s i (effect i s) := by
  cases m with
  | notNested => exact effectMove_of_metIn_notNested h s
  | nested => exact effectMove_of_metIn_nested h s

/-- An IE that the truncation check has admitted ends inside the valid bytes. -/
theorem State.afterIE_le_len {s : State} {len : Nat} (h2 : s.bytesLeft 2) (hle : len ≤ s.rem) :
    s.afterIE len ≤ s.len := by
  unfold State.rem State.rem0 at hle
  unfold State.afterIE
  omega

/-- What the parser's turn of a running parse can do: end with no byte left, fail with no register written, or have the
effect of the IE at the cursor, which is met in the walker's mode and lies inside the valid bytes. -/
theorem parserNext_cases_of_run (p : Ids) {s : State} (hr : s.state = .run) (hc : s.cursor ≤ s.len) :
    (s.cursor = s.len ∧ parserNext p s = s.finish .exhausted s.cursor) ∨
    (∃ e, parserNext p s = s.raise e) ∨
    (s.afterIE (decodeDescriptor p s.mode s.descriptor).declaredLen ≤ s.len ∧
      EffectMove s (decodeDescriptor p s.mode s.descriptor) (parserNext p s)) := by
  rcases parserNext_cases p s with ⟨hnr, -⟩ | ⟨-, h0, e⟩ | ⟨-, -, e⟩ | ⟨-, h2, e⟩
  · exact absurd hr hnr
  · exact .inl ⟨by unfold State.rem0 at h0; omega, e⟩
  · exact .inr (.inl ⟨_, e⟩)
  · rw [e]
    rcases ieNext_cases (decodeDescriptor p s.mode s.descriptor) s with ⟨-, e⟩ | ⟨-, -, -, e⟩ | ⟨hle, -, e⟩
    · exact .inr (.inl ⟨_, e⟩)
    · exact .inr (.inl ⟨_, e⟩)
    · rw [e]
      exact .inr (.inr ⟨State.afterIE_le_len h2 hle, effectMove_effect (metIn_decodeDescriptor p _ _) s⟩)

end Sys2Proof.Machine

/-! PROOFS. A parse ends within its bound (O36). -/

namespace Sys2Proof.Machine

/-- An IE that has its effect ends the parse or moves the cursor past its descriptor at least. -/
theorem EffectMove.ends_or_advances {s t : State} {i : Instr} (hmove : EffectMove s i t) (hr : s.state = .run) :
    (t.state = .done ∨ t.state = .error) ∨ t.state = .run ∧ s.cursor + 2 ≤ t.cursor := by
  cases hmove with
  | listTerm len => exact .inl (.inl rfl)
  | openGroup len => exact .inr ⟨hr, le_rfl⟩
  | pass i hm hterm hmlme => exact .inr ⟨by simpa using hr, Nat.le_add_right _ _⟩
  | overrun i hm hlt => exact .inl (.inr rfl)
  | closeGroup i hm heq => exact .inl (.inl rfl)
  | keepGroup i hm hlt => exact .inr ⟨by simpa using hr, Nat.le_add_right _ _⟩

/-- Progress: the parser's turn ends the parse or moves the cursor by 2 or more (40_walker.md R96). -/
theorem parserNext_ends_or_advances (p : Ids) {s : State} (hr : s.state = .run) (hc : s.cursor ≤ s.len) :
    ((parserNext p s).state = .done ∨ (parserNext p s).state = .error) ∨
      (parserNext p s).state = .run ∧ s.cursor + 2 ≤ (parserNext p s).cursor := by
  rcases parserNext_cases_of_run p hr hc with ⟨-, e⟩ | ⟨_, e⟩ | ⟨-, hmove⟩
  · rw [e]; exact .inl (.inl rfl)
  · rw [e]; exact .inl (.inr rfl)
  · exact hmove.ends_or_advances hr

/-- With no turn pending, further steps leave a machine that runs no parse as it is. -/
theorem run_of_not_run (p : Params) (k : Nat) {s : State} (hs : s.turns = []) (hr : s.state ≠ .run) :
    Host.Core.run (coreOf p) k s = .next s := by
  induction k with
  | zero => rfl
  | succ k ih => rw [run_succ_of_turns_nil p k hs, parserNext_of_not_run p.ids hr, ih]

/-- A running parse ends within any number of steps that is at least one more than half of the bytes left. -/
theorem run_ends_of_bound (p : Params) (k : Nat) {s : State} (h : s.Inv p) (hr : s.state = .run) (hs : s.turns = [])
    (hk : (s.len - s.cursor) / 2 + 1 ≤ k) :
    ∃ t, Host.Core.run (coreOf p) k s = .next t ∧ (t.state = .done ∨ t.state = .error) := by
  induction k generalizing s with
  | zero => omega
  | succ k ih =>
    obtain ⟨-, hlen, hturns⟩ := parserNext_frame p.ids s
    rw [run_succ_of_turns_nil p k hs]
    rcases parserNext_ends_or_advances p.ids hr (h.cursorLe hr) with hover | ⟨hrun, hcur⟩
    · exact ⟨_, run_of_not_run p k (hturns.trans hs) (by rcases hover with e | e <;> rw [e] <;> decide), hover⟩
    · have hle := h.parserNext.cursorLe hrun
      exact ih h.parserNext hrun (hturns.trans hs) (by omega)

/-- `START` keeps the invariant. -/
theorem State.Inv.startParse {p : Params} {s : State} (h : s.Inv p) (discard : Bool) : (s.startParse discard).Inv p := by
  rcases s.startParse_cases discard with ⟨-, e⟩ | ⟨hr, e⟩
  · rw [e]; exact h
  · rw [e]; exact (HostMove.start (.writeReg 0 1) discard hr).inv h

/-- Settles O36: each turn makes progress, and by induction on the steps so does the whole parse. -/
theorem everyParseEndsWithinItsBound : Obligations.EveryParseEndsWithinItsBound := by
  refine ⟨fun p s t h hr hstep => ?_, fun p s h hr hs => run_ends_of_bound p _ h hr hs le_rfl,
    fun p s discard h hr hs => ?_⟩
  · rw [parserStep_eq_next_parserNext] at hstep
    cases hstep
    exact parserNext_ends_or_advances p.ids hr (h.cursorLe hr)
  · have hinv := h.startParse discard
    rw [State.startParse_of_not_run discard hr] at hinv ⊢
    exact run_ends_of_bound p _ hinv rfl hs le_rfl

end Sys2Proof.Machine

/-! PROOFS. What a step of a running parse runs, and how it ends or moves (O28, O30, O34, O35). -/

namespace Sys2Proof.Machine

/-- With a descriptor left, the parser's step of a running parse is `exec` of the IE at the cursor. -/
theorem parserStep_of_bytesLeft (p : Ids) {s : State} (hr : s.state = .run) (h2 : s.bytesLeft 2) :
    parserStep p s = exec (decodeDescriptor p s.mode s.descriptor) s := by
  rw [parserStep_eq_next_parserNext, parserNext_of_bytesLeft p hr h2,
    exec_eq_next_ieNext s (isIE_of_metIn (metIn_decodeDescriptor p _ _))]

/-- A host write of `CTRL` runs the instruction that its value decodes to. -/
theorem turnStep_of_writeCtrl (p : Params) {s : State} {v : Nat} {rest : List Turn}
    (h : s.turns = .host (.writeReg 0 v) :: rest) :
    turnStep p s = exec (decode p.ids (.ctrlWrite (BitVec.ofNat 2 v))) { s with turns := rest } :=
  turnStep_of_host p h

theorem turnStep_of_nil_of_bytesLeft (p : Params) {s : State} (hs : s.turns = []) (hr : s.state = .run)
    (h2 : s.bytesLeft 2) : turnStep p s = exec (decodeDescriptor p.ids s.mode s.descriptor) s := by
  rw [turnStep_of_nil p hs, ← parserStep_eq_next_parserNext, parserStep_of_bytesLeft p.ids hr h2]

/-- Settles O28: the parser's turn by the bytes at the cursor, the host's by the value it writes. -/
theorem stepRunsTheDecodedInstruction : Obligations.StepRunsTheDecodedInstruction := by
  refine ⟨fun p s hs hr h2 => ⟨rfl, turnStep_of_nil_of_bytesLeft p hs hr h2⟩, fun p s rest hs hr h2 => ?_,
    fun p s v rest hs => turnStep_of_writeCtrl p hs, fun _ => rfl⟩
  rw [turnStep_of_parser p hs, ← parserStep_eq_next_parserNext]
  exact parserStep_of_bytesLeft p.ids (s := { s with turns := rest }) hr h2

/-- With no byte left the parser's step ends the parse where it stands. -/
theorem parserStep_of_cursor_eq_len (p : Ids) {s : State} (hr : s.state = .run) (hc : s.cursor = s.len) :
    parserStep p s = .next { s with consumed := s.cursor, endCause := some .exhausted, state := .done } := by
  rw [parserStep_eq_next_parserNext, parserNext_of_exhausted p hr (by rw [State.rem0, hc, Nat.sub_self])]
  rfl

/-- Settles O30: an empty buffer after `START` is the case of a cursor at `LEN`, and there the budget is 0. -/
theorem exhaustionEndsTheParse : Obligations.ExhaustionEndsTheParse := by
  refine ⟨fun p s => parserStep_of_cursor_eq_len p.ids, fun p s discard hr hlen => ?_, fun p s h hr hc => ?_⟩
  · rw [State.startParse_of_not_run discard hr]
    exact ⟨_, parserStep_of_cursor_eq_len p.ids rfl hlen.symm, rfl, rfl, rfl⟩
  · have hbudget := h.budgetLe hr
    rw [hc, Nat.sub_self, Nat.le_zero] at hbudget
    exact s.mode_eq_notNested_iff.2 (BitVec.eq_of_toNat_eq hbudget)

/-- Settles O34: of the turn's moves three end in `DONE`, and each sets `CONSUMED` and `CURSOR` to the same offset. -/
theorem successfulEndings : Obligations.SuccessfulEndings := by
  intro p s t h hr hstep hdone
  obtain ⟨herr, -, -⟩ := h.statusLaws.of_run hr
  rw [parserStep_eq_next_parserNext] at hstep
  cases hstep
  rcases parserNext_cases_of_run p.ids hr (h.cursorLe hr) with ⟨hc, e⟩ | ⟨_, e⟩ | ⟨hn, hmove⟩
  · rw [e]
    exact ⟨rfl, herr, h.cursorLe hr, .inl ⟨rfl, hc, hc⟩⟩
  · rw [e] at hdone
    cases hdone
  · have hmode := metIn_decodeDescriptor p.ids s.mode s.descriptor
    generalize hi : decodeDescriptor p.ids s.mode s.descriptor = i at hn hmove hmode
    generalize parserNext p.ids s = t at hmove hdone ⊢
    cases hmove with
    | listTerm len =>
      have hm : s.mode = .notNested := (Option.some.inj hmode).symm
      rw [hm] at hi
      exact ⟨rfl, herr, hn, .inr (.inl ⟨rfl, hm, len, hi, rfl⟩)⟩
    | closeGroup i hnested heq =>
      have hm : s.mode = .nested := Option.some.inj (hmode.symm.trans hnested)
      rw [hm] at hi
      refine ⟨rfl, by simpa using herr, by simpa using hn, .inr (.inr ⟨rfl, hm, by rw [hi]; exact heq, ?_⟩)⟩
      rw [heq, ← Nat.add_assoc]
      rfl
    | openGroup len => simp [hr] at hdone
    | pass i hm hterm hmlme => simp [hr] at hdone
    | overrun i hm hlt => simp at hdone
    | keepGroup i hm hlt => simp [hr] at hdone

/-- A sub-IE below the budget leaves some of it. -/
theorem State.budget_left_ne_zero {s : State} {n : Nat} (h : n < s.mlmeRem.toNat) :
    BitVec.ofNat 11 (s.mlmeRem.toNat - n) ≠ 0 := by
  intro hzero
  have hleft : s.mlmeRem.toNat - n = 0 := by rw [← s.budget_left_toNat n, hzero]; rfl
  omega

/-- Settles O35: each move of an effect, in the mode that its IE is met in. -/
theorem cursorAndModeMovement : Obligations.CursorAndModeMovement := by
  intro p s t i h hr h2 hi hstep hne
  have hmode : metIn i = some s.mode := hi ▸ metIn_decodeDescriptor p.ids s.mode s.descriptor
  have hmove : s.afterIE i.declaredLen ≤ s.len ∧ EffectMove s i t := by
    rw [parserStep_eq_next_parserNext] at hstep
    cases hstep
    rcases parserNext_cases_of_run p.ids hr (h.cursorLe hr) with ⟨hc, -⟩ | ⟨_, e⟩ | hmove
    · omega
    · rw [e] at hne
      exact absurd rfl hne
    · rwa [hi]
  have hclosed (hm : metIn i = some .notNested) : s.mode ≠ .nested ∧ s.mlmeRem = 0 := by
    rw [hmode, Option.some.injEq] at hm
    exact ⟨by simp [hm], s.mode_eq_notNested_iff.1 hm⟩
  have hopen (hm : metIn i = some .nested) : s.mode ≠ .notNested ∧ ∀ len, i ≠ .pieMlme len := by
    refine ⟨fun hnot => ?_, fun len hmlme => ?_⟩
    · rw [hm, hnot] at hmode
      cases hmode
    · rw [hmlme] at hm
      cases hm
  obtain ⟨hn, hmove⟩ := hmove
  cases hmove with
  | listTerm len =>
    obtain ⟨hnest, hm0⟩ := hclosed rfl
    exact ⟨hn, nofun, fun _ => rfl, fun _ _ => ⟨hm0, ⟨fun _ => ⟨len, rfl⟩, fun _ => rfl⟩, fun _ => rfl⟩,
      fun hm => absurd hm hnest⟩
  | openGroup len =>
    obtain ⟨hnest, -⟩ := hclosed rfl
    refine ⟨h2, fun len' hlen => ?_, fun hmlme => absurd rfl (hmlme len), fun hmlme => absurd rfl (hmlme len),
      fun hm => absurd hm hnest⟩
    cases hlen
    exact ⟨rfl, rfl, hr, State.mode_eq_nested_iff _⟩
  | pass i hm hterm hmlme =>
    obtain ⟨hnest, hm0⟩ := hclosed hm
    refine ⟨by simpa using hn, fun len hlen => absurd hlen (hmlme len), fun _ => rfl,
      fun _ _ => ⟨by simpa using hm0, ?_⟩, fun hm => absurd hm hnest⟩
    simp [hr, hterm]
  | overrun i hm hlt => exact absurd rfl hne
  | closeGroup i hm heq =>
    obtain ⟨hnot, hmlme⟩ := hopen hm
    refine ⟨by simpa using hn, fun len hlen => absurd hlen (hmlme len), fun _ => rfl, fun _ hm => absurd hm hnot,
      fun _ => ?_⟩
    exact ⟨by simp [heq], iff_of_true rfl rfl, fun _ => rfl⟩
  | keepGroup i hm hlt =>
    obtain ⟨hnot, hmlme⟩ := hopen hm
    refine ⟨by simpa using hn, fun len hlen => absurd hlen (hmlme len), fun _ => rfl, fun _ hm => absurd hm hnot,
      fun _ => ?_⟩
    refine ⟨?_, iff_of_false (by simp [hr]) (State.budget_left_ne_zero hlt), fun hdone => by simp [hr] at hdone⟩
    rw [State.advance_mlmeRem, State.budget_left_toNat]
    exact Nat.sub_add_cancel hlt.le

end Sys2Proof.Machine

/-! PROOFS. The frames of the IEs (O22, O23). -/

namespace Sys2Proof.Machine

/-- What `exec` of an IE can answer: a failure with no register written, or the IE's effect. -/
theorem exec_cases_of_metIn {i : Instr} {m : Mode} {s t : State} (hm : metIn i = some m) (h : exec i s = .next t) :
    (∃ e, t = s.raise e) ∨ EffectMove s i t := by
  rw [exec_eq_next_ieNext s (isIE_of_metIn hm)] at h
  cases h
  rcases ieNext_cases i s with ⟨-, e⟩ | ⟨-, -, -, e⟩ | ⟨-, -, e⟩
  · exact .inl ⟨_, e⟩
  · exact .inl ⟨_, e⟩
  · rw [e]
    exact .inr (effectMove_effect hm s)

/-- What no IE changes: the host's inputs (20_memory.md R45) and the environment. -/
def SameSurroundings (s t : State) : Prop :=
  t.buf = s.buf ∧ (∀ a, t.buf.read a = s.buf.read a) ∧ t.len = s.len ∧ t.discard = s.discard ∧
    t.turns = s.turns ∧ t.replies = s.replies

theorem EffectMove.sameSurroundings {s t : State} {i : Instr} (hmove : EffectMove s i t) : SameSurroundings s t := by
  cases hmove <;> simp [SameSurroundings]

theorem exec_sameSurroundings {i : Instr} {m : Mode} {s t : State} (hm : metIn i = some m) (h : exec i s = .next t) :
    SameSurroundings s t := by
  rcases exec_cases_of_metIn hm h with ⟨_, rfl⟩ | hmove
  · exact ⟨rfl, fun _ => rfl, rfl, rfl, rfl, rfl⟩
  · exact hmove.sameSurroundings

theorem metIn_of_mem_topLevelIEs {i : Instr} {idH : BitVec 8} {lenH : BitVec 7} {idP : BitVec 4} {lenP : BitVec 11}
    (h : i ∈ [.hieAcknackTc lenH, .hieListTerm2 lenH, .hieListTerm1 lenH, .hieOther idH lenH, .pieMlme lenP,
      Instr.pieOther idP lenP]) : metIn i = some .notNested := by
  revert i
  simp [metIn]

theorem metIn_of_mem_subIEs {i : Instr} {idS : BitVec 7} {lenS : BitVec 8} {idL : BitVec 4} {lenL : BitVec 11}
    (h : i ∈ [.subsSync lenS, .subsTimeslot lenS, .subsSlotframeLink lenS, .subsOther idS lenS, .sublChseq lenL,
      Instr.sublOther idL lenL]) : metIn i = some .nested := by
  revert i
  simp [metIn]

/-- Of the top-level IEs only the time correction is recorded, in its two registers (41_header_ie.md R110). -/
theorem recordWrite_topLevel {i : Instr} (hm : metIn i = some .notNested) (s : State) (r : Record) :
    ((∀ len, i ≠ .hieAcknackTc len) → recordWrite i s r = r) ∧
      { recordWrite i s r with isNack := r.isNack, timeCorrection := r.timeCorrection } = r := by
  cases i with
  | hieAcknackTc len => exact ⟨fun h => absurd rfl (h len), rfl⟩
  | hieListTerm2 _ => exact ⟨fun _ => rfl, rfl⟩
  | hieListTerm1 _ => exact ⟨fun _ => rfl, rfl⟩
  | hieOther _ _ => exact ⟨fun _ => rfl, rfl⟩
  | pieMlme _ => exact ⟨fun _ => rfl, rfl⟩
  | pieOther _ _ => exact ⟨fun _ => rfl, rfl⟩
  | _ => cases hm

/-- The result record after a top-level IE. -/
theorem record_of_exec_topLevel {i : Instr} {s t : State} (hm : metIn i = some .notNested) (h : exec i s = .next t) :
    ((∀ len, i ≠ .hieAcknackTc len) → t.record = s.record) ∧
      { t.record with isNack := s.record.isNack, timeCorrection := s.record.timeCorrection } = s.record := by
  rcases record_of_exec h with e | e
  · rw [e]; exact ⟨fun _ => rfl, rfl⟩
  · rw [e]; exact recordWrite_topLevel hm s s.record

/-- Settles O22: the surroundings, the record, and the status registers by what the IE does. -/
theorem topLevelIEFrame : Obligations.TopLevelIEFrame := by
  intro s t i idH lenH idP lenP hmem h
  have hm := metIn_of_mem_topLevelIEs hmem
  obtain ⟨hbuf, hread, hlen, hdiscard, hturns, hreplies⟩ := exec_sameSurroundings hm h
  obtain ⟨hkeep, hframe⟩ := record_of_exec_topLevel hm h
  have hrec (hne : i ≠ .hieAcknackTc lenH) : t.record = s.record := hkeep fun len hack => by
    subst hack
    exact hne (by simpa using hmem)
  refine ⟨hbuf, hread, hlen, hdiscard, hturns, hreplies, ?_⟩
  rcases exec_cases_of_metIn hm h with ⟨e, rfl⟩ | hmove
  · exact ⟨fun _ => rfl, fun _ => ⟨rfl, rfl⟩, .inr ⟨rfl, rfl, rfl, rfl, rfl, rfl⟩, fun _ => .inr rfl, hrec,
      hframe⟩
  · cases hmove with
    | listTerm len =>
      obtain rfl : len = lenH := by simpa using hmem
      exact ⟨fun _ => rfl, fun hne => absurd rfl hne, .inl rfl, fun hne => absurd rfl hne, hrec, hframe⟩
    | openGroup len =>
      obtain rfl : len = lenP := by simpa using hmem
      exact ⟨fun hne => absurd rfl hne, fun _ => ⟨rfl, rfl⟩, .inl rfl, fun _ => .inl rfl, hrec, hframe⟩
    | pass i hm hterm hmlme =>
      exact ⟨fun _ => by simp, fun _ => by simp, .inl (by simp), fun _ => .inl (by simp), hrec, hframe⟩
    | overrun i hnested hlt => cases hm.symm.trans hnested
    | closeGroup i hnested heq => cases hm.symm.trans hnested
    | keepGroup i hnested hlt => cases hm.symm.trans hnested

/-- The status registers after a sub-IE: unless it fails or closes its group, they stay (40_walker.md R94). -/
theorem status_of_exec_subIE {i : Instr} {s t : State} (hm : metIn i = some .nested) (h : exec i s = .next t) :
    (t.err = s.err ∨ t.state = .error ∧ t.cursor = s.cursor ∧ t.mlmeRem = s.mlmeRem ∧ t.consumed = s.consumed ∧
      t.endCause = s.endCause ∧ (t.err ≠ some .overrunNestedGroup → t.record = s.record)) ∧
    (t.consumed = s.consumed ∧ t.endCause = s.endCause ∨
      t.state = .done ∧ t.mlmeRem = 0 ∧ t.endCause = some .groupDone) ∧
    (t.state = s.state ∨ t.state = .error ∨ t.state = .done ∧ t.mlmeRem = 0) := by
  rcases exec_cases_of_metIn hm h with ⟨e, rfl⟩ | hmove
  · exact ⟨.inr ⟨rfl, rfl, rfl, rfl, rfl, fun _ => rfl⟩, .inl ⟨rfl, rfl⟩, .inr (.inl rfl)⟩
  · cases hmove with
    | listTerm len => cases hm
    | openGroup len => cases hm
    | pass i hnot hterm hmlme => cases hm.symm.trans hnot
    | overrun i hm hlt => simp
    | closeGroup i hm heq => simp
    | keepGroup i hm hlt => simp

/-- Settles O23: the surroundings, the status registers, and the record, which stays or is the one sub-IE's write. -/
theorem subIEFrame : Obligations.SubIEFrame := by
  intro s t i idS lenS idL lenL hmem h
  have hm := metIn_of_mem_subIEs hmem
  have hrec := record_of_exec h
  obtain ⟨hbuf, hread, hlen, hdiscard, hturns, hreplies⟩ := exec_sameSurroundings hm h
  obtain ⟨herr, hend, hstate⟩ := status_of_exec_subIE hm h
  refine ⟨hbuf, hread, hlen, hdiscard, hturns, hreplies, herr, hend, hstate, ?_, ?_, ?_, fun hskip => ?_⟩
  · rintro rfl
    rcases hrec with e | e <;> simp [e, recordWrite]
  · rintro rfl
    rcases hrec with e | e <;> simp [e, recordWrite]
  · rintro rfl
    rcases hrec with e | e <;> simp [e, recordWrite]
  · simp only [List.mem_cons, List.not_mem_nil, or_false] at hskip
    rcases hskip with rfl | rfl | rfl <;> exact hrec.elim id id

end Sys2Proof.Machine

/-! PROOFS. A placed word is what the next step runs (O52). -/

namespace Sys2Proof.Machine

/-- The first byte of a stored number is its low byte (20_memory.md R41). -/
theorem Memory.read_storeNumber_head {cap : Nat} {m : Memory} (hm : m.wf cap = true) {a : Nat} (ha : a < cap)
    (w n : Nat) : (m.storeNumber cap a w (n + 1)).read a = BitVec.ofNat 8 w := by
  rw [Memory.storeNumber, Memory.read_storeNumber_below (Memory.store_wf hm a _) (Nat.lt_succ_self a),
    Memory.read_store hm, if_pos ⟨ha, rfl⟩]

/-- The second byte of a stored number is the low byte of the rest. -/
theorem Memory.read_storeNumber_second {cap : Nat} {m : Memory} (hm : m.wf cap = true) {a : Nat} (ha : a + 1 < cap)
    (w n : Nat) : (m.storeNumber cap a w (n + 2)).read (a + 1) = BitVec.ofNat 8 (w / 256) :=
  Memory.read_storeNumber_head (Memory.store_wf hm a _) ha (w / 256) n

/-- The two bytes of a table word make up its descriptor. -/
theorem descOfBytes_tableWord (w : Nat) :
    descOfBytes (BitVec.ofNat 8 w) (BitVec.ofNat 8 (w / 256)) = tableDesc w := by
  apply BitVec.eq_of_toNat_eq
  refine (toNat_append_byte _ _).trans ?_
  simp only [tableDesc, BitVec.toNat_ofNat]
  omega

theorem decodeTableWord_of_lt {nbits : Nat} (h : 8 < nbits) (w : Nat) :
    decodeTableWord nbits w =
      some (decodeDescriptor defaultIds (tableMode defaultIds (tableDesc w)) (tableDesc w)) := by
  rw [decodeTableWord, if_neg (by omega), tableBytes, decodeBytes, descOfBytes_tableWord]

/-- A placed IE takes its descriptor's two bytes at least. -/
theorem two_le_tableIELength (w : Nat) : 2 ≤ tableIELength w := Nat.le_add_right _ _

/-- The descriptor of a placed word lies inside the buffer. -/
theorem tableOffset_lt (w : Nat) (s : State) : tableOffset w s + 1 < defaultParams.bufCap := by
  unfold tableOffset
  split
  · next h => have := two_le_tableIELength w; omega
  · decide

/-- The group that `State.placeIE` opens for a sub-IE is not empty. -/
theorem openingBudget_ne_zero {n : Nat} (h : 2 ≤ n) : BitVec.ofNat 11 (min n 2047) ≠ 0 := by
  rw [BitVec.toNat_ne, BitVec.toNat_ofNat]
  change min n 2047 % 2 ^ 11 ≠ 0
  omega

/-- The mode of a placed word is the one it is read in. -/
theorem State.placeIE_mode (w : Nat) (s : State) : (s.placeIE w).mode = tableMode defaultIds (tableDesc w) := by
  have hrem : (s.placeIE w).mlmeRem = tableBudget w s := rfl
  cases hm : tableMode defaultIds (tableDesc w) with
  | notNested => rw [State.mode_eq_notNested_iff, hrem, tableBudget, hm]
  | nested =>
    rw [State.mode_eq_nested_iff, hrem, tableBudget, hm]
    dsimp only
    split
    · exact openingBudget_ne_zero (two_le_tableIELength w)
    · next hopen => exact hopen

theorem State.placeIE_descriptor (w : Nat) {s : State} (hs : s.buf.wf defaultParams.bufCap = true) :
    (s.placeIE w).descriptor = tableDesc w := by
  have hlen : tableIELength w = (tableIELength w - 2) + 2 := (Nat.sub_add_cancel (two_le_tableIELength w)).symm
  have hoff := tableOffset_lt w s
  have hlo := Memory.read_storeNumber_head hs (Nat.lt_of_succ_lt hoff) w (tableIELength w - 2 + 1)
  have hhi := Memory.read_storeNumber_second hs hoff w (tableIELength w - 2)
  rw [← hlen] at hlo hhi
  rw [← descOfBytes_tableWord, ← hlo, ← hhi]
  rfl

theorem State.placeIE_bytesLeft (w : Nat) (s : State) : (s.placeIE w).bytesLeft 2 :=
  (Nat.add_le_add_left (two_le_tableIELength w) _).trans (le_max_right _ _)

/-- Settles O52: a placed IE is the one at the cursor of a running parse, a placed `CTRL` word the next turn. -/
theorem placedWordIsRunNext : Obligations.PlacedWordIsRunNext := by
  refine fun s nbits w hs =>
    ⟨fun hbits => ⟨_, decodeTableWord_of_lt hbits w, ?_⟩, fun hbits => ⟨_, if_pos hbits, ?_⟩⟩
  · rw [State.withFetchWord, State.placeWord, if_neg (by omega)]
    have hstep := turnStep_of_nil_of_bytesLeft defaultParams (s := s.placeIE w) rfl rfl (s.placeIE_bytesLeft w)
    rwa [s.placeIE_mode, s.placeIE_descriptor w hs] at hstep
  · rw [State.withFetchWord, State.placeWord, if_pos hbits]
    exact turnStep_of_writeCtrl defaultParams (s := s.placeCtrl w) rfl

end Sys2Proof.Machine

/-! SUPPORT. An IE with the bytes for its descriptor left, by its truncation check and its size (60_exceptions.md R176),
in the words of the statements. -/

namespace Sys2Proof.Machine

/-- The truncation check of 40_walker.md R98 fails exactly when the payload runs past the valid bytes. -/
theorem State.rem_lt_iff {s : State} (h2 : s.bytesLeft 2) (n : Nat) : s.rem < n ↔ ¬ s.bytesLeft (2 + n) := by
  unfold State.rem State.rem0 State.bytesLeft
  omega

theorem State.le_rem_iff {s : State} (h2 : s.bytesLeft 2) (n : Nat) : n ≤ s.rem ↔ s.bytesLeft (2 + n) := by
  rw [← not_lt, State.rem_lt_iff h2, not_not]

theorem raises_truncatedPayload {i : Instr} {s : State} (hi : i.isIE = true) (h2 : s.bytesLeft 2)
    (h : ¬ s.bytesLeft (2 + i.declaredLen)) : Raises i s .truncatedPayload :=
  (exec_eq_next_ieNext s hi).trans (congrArg _ (ieNext_of_truncated ((State.rem_lt_iff h2 _).2 h)))

theorem raises_invalidLength {i : Instr} {s : State} {size : Nat} (hi : i.isIE = true) (h2 : s.bytesLeft 2)
    (h : s.bytesLeft (2 + i.declaredLen)) (hsize : i.requiredLen = some size) (hne : i.declaredLen ≠ size) :
    Raises i s .invalidLength := by
  have hwrong : ieNext i s = s.raise .invalidLength :=
    ieNext_of_wrong_size ((State.le_rem_iff h2 _).2 h) (by simp [hsize]) (by simpa [hsize] using hne.symm)
  exact (exec_eq_next_ieNext s hi).trans (congrArg _ hwrong)

theorem exec_eq_next_effect {i : Instr} {s : State} (hi : i.isIE = true) (h2 : s.bytesLeft 2)
    (h : s.bytesLeft (2 + i.declaredLen)) (hsize : i.requiredLen = none ∨ i.requiredLen = some i.declaredLen) :
    exec i s = .next (effect i s) :=
  (exec_eq_next_ieNext s hi).trans (congrArg _ (ieNext_of_accepted ((State.le_rem_iff h2 _).2 h) hsize))

/-- The flag of a field read low byte first is the top bit of its second byte (30_encoding.md R67). -/
theorem isNackOf_append (hi lo : Byte) : isNackOf (hi ++ lo) = hi.getLsbD 7 := BitVec.getLsbD_append

/-- Writing an IE's fields under the guard of `DISCARD` leaves its accepted record, and changes nothing else. -/
theorem State.writeRecord_recordWrite (i : Instr) (s : State) :
    s.writeRecord (recordWrite i s) = { s with record := s.acceptedRecord i } := by
  rw [State.writeRecord_eq]
  cases i with
  | hieAcknackTc len => simp only [recordWrite, isNackOf_append]; rfl
  | subsSync len => rfl
  | subsTimeslot len => rfl
  | sublChseq len => rfl
  | _ => simp only [recordWrite, ite_self]

end Sys2Proof.Machine

/-! PROOFS. The header IEs (O10, O11, O12). -/

namespace Sys2Proof.Machine

/-- A header descriptor as the number of its two fields (30_encoding.md R60). -/
theorem descriptor_packHdr_eq_ofNat (m : Mode) (id : BitVec 8) (len : BitVec 7) :
    Code.descriptor m (packHdr id len) = .descriptor m (BitVec.ofNat 16 (id.toNat * 128 + len.toNat)) := by
  rw [descriptor_packHdr_eq_iff, BitVec.toNat_ofNat, Nat.mod_eq_of_lt (by omega)]

/-- Settles O10: the two failures in the order of R176, and the accepted field under the guard of `DISCARD`. -/
theorem ackNackTimeCorrection : Obligations.AckNackTimeCorrection := by
  refine ⟨fun p len => descriptor_packHdr_eq_ofNat .notNested p.acknackTc len, rfl, fun s len h2 => ⟨?_, ?_, ?_⟩⟩
  · exact raises_truncatedPayload (i := .hieAcknackTc len) rfl h2
  · exact fun h hne => raises_invalidLength (i := .hieAcknackTc len) rfl h2 h rfl fun hlen =>
      hne (BitVec.eq_of_toNat_eq hlen)
  · rintro h4 rfl
    rw [exec_eq_next_effect (i := .hieAcknackTc 2) rfl h2 h4 (.inr rfl), effect, State.writeRecord_recordWrite]
    rfl

/-- Settles O11: no size is required, so a payload in bounds is counted by the end of the parse. -/
theorem listTerminationEndsTheParse : Obligations.ListTerminationEndsTheParse :=
  ⟨fun _ len => descriptor_packHdr_eq_ofNat .notNested Config.hdrIdListTerm2 len, rfl, by decide, fun _ len h2 =>
    ⟨raises_truncatedPayload (i := .hieListTerm2 len) rfl h2,
      fun h => exec_eq_next_effect (i := .hieListTerm2 len) rfl h2 h (.inl rfl)⟩⟩

/-- Settles O12: no size is required, so a payload in bounds is passed. -/
theorem unrecognisedHeaderIEsAreSkipped : Obligations.UnrecognisedHeaderIEsAreSkipped :=
  ⟨fun _ len => descriptor_packHdr_eq_ofNat .notNested Config.hdrIdListTerm1 len,
    fun _ id len => descriptor_packHdr_eq_ofNat .notNested id len, rfl, fun _ id len h2 =>
    ⟨fun h => ⟨raises_truncatedPayload (i := .hieListTerm1 len) rfl h2 h,
        raises_truncatedPayload (i := .hieOther id len) rfl h2 h⟩,
      fun h => ⟨exec_eq_next_effect (i := .hieListTerm1 len) rfl h2 h (.inl rfl),
        exec_eq_next_effect (i := .hieOther id len) rfl h2 h (.inl rfl)⟩⟩⟩

end Sys2Proof.Machine

/-! PROOFS. The payload IEs (O13, O14). -/

namespace Sys2Proof.Machine

/-- A payload descriptor as the number of its two fields (30_encoding.md R60). -/
theorem descriptor_packPld_eq_ofNat (m : Mode) (id : BitVec 4) (len : BitVec 11) :
    Code.descriptor m (packPld id len) = .descriptor m (BitVec.ofNat 16 (0x8000 + id.toNat * 2048 + len.toNat)) := by
  rw [descriptor_packPld_eq_iff, BitVec.toNat_ofNat, Nat.mod_eq_of_lt (by omega)]

/-- A sub-IE in a budget that is smaller than its descriptor can only overrun its group (40_walker.md R94). -/
theorem EffectMove.error_of_budget_lt_two {s t : State} {i : Instr} (hmove : EffectMove s i t)
    (hm : metIn i = some .nested) (hb : s.mlmeRem.toNat < 2) : t.state = .error := by
  cases hmove with
  | listTerm len => cases hm
  | openGroup len => cases hm
  | pass i hnot hterm hmlme => cases hm.symm.trans hnot
  | overrun i _ hlt => rfl
  | closeGroup i _ heq => omega
  | keepGroup i _ hlt => omega

/-- No parser's turn survives an open group of one byte: the descriptor is cut off, or the IE there fails on its own, or
it overruns the group (42_payload_ie.md R120). -/
theorem parserNext_error_of_budget_eq_one (p : Ids) {s : State} (hr : s.state = .run) (hc : s.cursor < s.len)
    (hb : s.mlmeRem = 1) : (parserNext p s).state = .error := by
  have hmode : s.mode = .nested := s.mode_eq_nested_iff.2 (by simp [hb])
  rcases parserNext_cases_of_run p hr hc.le with ⟨hend, -⟩ | ⟨_, e⟩ | ⟨-, hmove⟩
  · exact absurd hend hc.ne
  · rw [e]; rfl
  · exact hmove.error_of_budget_lt_two (hmode ▸ metIn_decodeDescriptor p _ _) (by simp [hb])

/-- A container in bounds opens its group and passes its descriptor only. -/
theorem exec_pieMlme_of_bytesLeft {s : State} {len : BitVec 11} (h2 : s.bytesLeft 2) (h : s.bytesLeft (2 + len.toNat)) :
    exec (.pieMlme len) s = .next { s with mlmeRem := len, cursor := s.afterIE 0 } :=
  exec_eq_next_effect (i := .pieMlme len) rfl h2 h (.inl rfl)

/-- Settles O13: the mode after the container is that of its budget, and a budget of 1 holds no sub-IE. -/
theorem mlmeContainerOpensItsGroup : Obligations.MlmeContainerOpensItsGroup := by
  refine ⟨fun p len => descriptor_packPld_eq_ofNat .notNested Config.pldGidMlme len, fun s len h2 =>
    ⟨raises_truncatedPayload (i := .pieMlme len) rfl h2, exec_pieMlme_of_bytesLeft h2, fun t h ht => ?_⟩⟩
  rw [exec_pieMlme_of_bytesLeft h2 h] at ht
  cases ht
  refine ⟨State.mode_eq_notNested_iff _, ?_⟩
  rintro rfl hr p
  have hleft : s.afterIE 0 < s.len := h
  exact ⟨_, parserStep_eq_next_parserNext p _, parserNext_error_of_budget_eq_one p hr hleft rfl⟩

/-- Settles O14: no size is required, so a payload in bounds is passed. -/
theorem unrecognisedPayloadIEsAreSkipped : Obligations.UnrecognisedPayloadIEsAreSkipped :=
  ⟨fun _ id len => descriptor_packPld_eq_ofNat .notNested id len, fun _ id len h2 =>
    ⟨raises_truncatedPayload (i := .pieOther id len) rfl h2,
      fun h => exec_eq_next_effect (i := .pieOther id len) rfl h2 h (.inl rfl)⟩⟩

end Sys2Proof.Machine

/-! SUPPORT. A sub-IE that is admitted runs its nested tail (40_walker.md R94), in the words of the statements. -/

namespace Sys2Proof.Machine

/-- A sub-IE in bounds and of its required size is its nested tail, run with its registers written already. -/
theorem exec_eq_next_nestedTail {i : Instr} {s : State} (hm : metIn i = some .nested) (h2 : s.bytesLeft 2)
    (h : s.bytesLeft (2 + i.declaredLen)) (hsize : i.requiredLen = none ∨ i.requiredLen = some i.declaredLen) :
    exec i s = .next
      (State.nestedTail i.declaredLen (s.cursor + 2) { s with record := s.acceptedRecord i }) := by
  rw [exec_eq_next_effect (isIE_of_metIn hm) h2 h hsize, effect_of_metIn_nested hm, State.writeRecord_recordWrite]

/-- The budget decides between overrunning the group, closing it and leaving the rest of it. -/
theorem nestedTail_of_admitted {i : Instr} {s : State} (hm : metIn i = some .nested) (h2 : s.bytesLeft 2)
    (h : s.bytesLeft (2 + i.declaredLen)) (hsize : i.requiredLen = none ∨ i.requiredLen = some i.declaredLen) :
    NestedTail i s i.declaredLen (s.acceptedRecord i) := by
  have hexec := exec_eq_next_nestedTail hm h2 h hsize
  unfold State.nestedTail at hexec
  refine ⟨fun hover => ?_, fun hclose => ?_, fun hkeep => ?_⟩
  · rw [hexec, if_pos hover]; rfl
  · rw [hexec, if_neg hclose.not_lt, if_pos hclose]; rfl
  · rw [hexec, if_neg hkeep.not_gt, if_neg hkeep.ne']; rfl

end Sys2Proof.Machine

/-! PROOFS. The short sub-IEs (O15, O16, O17). -/

namespace Sys2Proof.Machine

/-- A short sub-IE descriptor as the number of its two fields (30_encoding.md R60). -/
theorem descriptor_packSubs_eq_ofNat (m : Mode) (id : BitVec 7) (len : BitVec 8) :
    Code.descriptor m (packSubs id len) = .descriptor m (BitVec.ofNat 16 (id.toNat * 256 + len.toNat)) := by
  rw [descriptor_packSubs_eq_iff, BitVec.toNat_ofNat, Nat.mod_eq_of_lt (by omega)]

/-- Settles O15: the two failures in the order of R176, and the tail after the three registers at the size 6. -/
theorem synchronizationSubIE : Obligations.SynchronizationSubIE := by
  refine ⟨fun p len => descriptor_packSubs_eq_ofNat .nested p.sync len, rfl, fun s len h2 => ⟨?_, ?_, ?_⟩⟩
  · exact raises_truncatedPayload (i := .subsSync len) rfl h2
  · exact fun h hne => raises_invalidLength (i := .subsSync len) rfl h2 h rfl fun hlen =>
      hne (BitVec.eq_of_toNat_eq hlen)
  · rintro h8 rfl
    exact nestedTail_of_admitted (i := .subsSync 6) rfl h2 h8 (.inr rfl)

/-- Settles O16: the two failures in the order of R176, and the tail after the one register at the size 1. -/
theorem timeslotSubIE : Obligations.TimeslotSubIE := by
  refine ⟨fun p len => descriptor_packSubs_eq_ofNat .nested p.timeslot len, rfl, fun s len h2 => ⟨?_, ?_, ?_⟩⟩
  · exact raises_truncatedPayload (i := .subsTimeslot len) rfl h2
  · exact fun h hne => raises_invalidLength (i := .subsTimeslot len) rfl h2 h rfl fun hlen =>
      hne (BitVec.eq_of_toNat_eq hlen)
  · rintro h3 rfl
    exact nestedTail_of_admitted (i := .subsTimeslot 1) rfl h2 h3 (.inr rfl)

/-- Settles O17: no size is required and no register is written, so a payload in bounds leaves the tail only. -/
theorem skippedShortSubIEs : Obligations.SkippedShortSubIEs :=
  ⟨fun _ id len => descriptor_packSubs_eq_ofNat .nested id len,
    fun p len => descriptor_packSubs_eq_ofNat .nested p.slotframeLink len, rfl, fun _ id len h2 =>
    ⟨fun h => ⟨raises_truncatedPayload (i := .subsOther id len) rfl h2 h,
        raises_truncatedPayload (i := .subsSlotframeLink len) rfl h2 h⟩,
      fun h => ⟨nestedTail_of_admitted (i := .subsOther id len) rfl h2 h (.inl rfl),
        nestedTail_of_admitted (i := .subsSlotframeLink len) rfl h2 h (.inl rfl)⟩⟩⟩

end Sys2Proof.Machine

/-! PROOFS. The long sub-IEs (O18, O19). -/

namespace Sys2Proof.Machine

/-- A long sub-IE descriptor as the number of its two fields: the layout of a payload descriptor (30_encoding.md R60). -/
theorem descriptor_packSubl_eq_ofNat (m : Mode) (id : BitVec 4) (len : BitVec 11) :
    Code.descriptor m (packSubl id len) = .descriptor m (BitVec.ofNat 16 (0x8000 + id.toNat * 2048 + len.toNat)) :=
  descriptor_packPld_eq_ofNat m id len

/-- Settles O18: the two failures in the order of R176, and the tail after the one register at the size 1. -/
theorem channelHoppingSubIE : Obligations.ChannelHoppingSubIE := by
  refine ⟨fun p len => descriptor_packSubl_eq_ofNat .nested p.chseq len, rfl, fun s len h2 => ⟨?_, ?_, ?_⟩⟩
  · exact raises_truncatedPayload (i := .sublChseq len) rfl h2
  · exact fun h hne => raises_invalidLength (i := .sublChseq len) rfl h2 h rfl fun hlen =>
      hne (BitVec.eq_of_toNat_eq hlen)
  · rintro h3 rfl
    exact nestedTail_of_admitted (i := .sublChseq 1) rfl h2 h3 (.inr rfl)

/-- Settles O19: no size is required and no register is written, so a payload in bounds leaves the tail only; in nested
mode the id 1 names no row of its own. -/
theorem skippedLongSubIEs : Obligations.SkippedLongSubIEs :=
  ⟨fun _ id len => descriptor_packSubl_eq_ofNat .nested id len, by decide, fun _ id len h2 =>
    ⟨raises_truncatedPayload (i := .sublOther id len) rfl h2,
      fun h => nestedTail_of_admitted (i := .sublOther id len) rfl h2 h (.inl rfl)⟩⟩

end Sys2Proof.Machine

/-! PROOFS. The two writes of `CTRL` (O20, O21, O24). -/

namespace Sys2Proof.Machine

theorem exec_setDiscard_of_run (discard : Bool) {s : State} (hr : s.state = .run) :
    exec (.setDiscard discard) s = .next s := congrArg Host.Outcome.next (if_pos hr)

theorem exec_setDiscard_of_not_run (discard : Bool) {s : State} (hr : s.state ≠ .run) :
    exec (.setDiscard discard) s = .next { s with discard := discard } := congrArg Host.Outcome.next (if_neg hr)

theorem exec_start_of_run (discard : Bool) {s : State} (hr : s.state = .run) :
    exec (.start discard) s = .next s := congrArg Host.Outcome.next (State.startParse_of_run discard hr)

/-- Settles O20: `START` is bit 0 of the value, and a parse of an empty buffer has its cursor at `LEN` at once. -/
theorem startBeginsAParse : Obligations.StartBeginsAParse := by
  refine ⟨fun v hv => if_pos hv, fun s discard => ⟨exec_start_of_run discard, fun hr => ?_, fun hr hlen => ?_⟩⟩
  · exact congrArg Host.Outcome.next (State.startParse_of_not_run discard hr)
  · exact ⟨_, congrArg Host.Outcome.next (State.startParse_of_not_run discard hr),
      fun p => parserStep_of_cursor_eq_len p rfl hlen.symm⟩

/-- Settles O21: dropped in `RUN`, the write of the one field outside it. -/
theorem setDiscardWritesDiscard : Obligations.SetDiscardWritesDiscard := fun _ discard =>
  ⟨exec_setDiscard_of_run discard, exec_setDiscard_of_not_run discard⟩

/-- Settles O24: each of the two is dropped or writes its own fields. -/
theorem ctrlWriteFrame : Obligations.CtrlWriteFrame := by
  intro s t discard
  refine ⟨fun h => ?_, fun h => ?_⟩
  · have ht : s.startParse discard = t := Host.Outcome.next.inj h
    rcases s.startParse_cases discard with ⟨-, e⟩ | ⟨-, e⟩
    · rw [← ht, e]; exact ⟨rfl, fun _ => rfl, rfl, rfl, rfl, rfl⟩
    · rw [← ht, e]; exact ⟨rfl, fun _ => rfl, rfl, rfl, rfl, rfl⟩
  · by_cases hr : s.state = .run
    · rw [exec_setDiscard_of_run discard hr] at h
      cases h
      exact ⟨rfl, fun _ => rfl⟩
    · rw [exec_setDiscard_of_not_run discard hr] at h
      cases h
      exact ⟨rfl, fun _ => rfl⟩

end Sys2Proof.Machine

/-! PROOFS. The host's accesses to the registers and the buffer (O9, O41, O44, O46, O47). -/

namespace Sys2Proof.Machine

/-! ## The buffer (45_host_commands.md R154) -/

theorem Memory.store_of_le {cap a : Nat} (m : Memory) (b : Byte) (h : cap ≤ a) : m.store cap a b = m :=
  if_neg (Nat.not_lt.2 h)

theorem Memory.load_of_lt {cap a : Nat} (m : Memory) (h : a < cap) : m.load cap a = m.read a := if_pos h

theorem Memory.load_of_le {cap a : Nat} (m : Memory) (h : cap ≤ a) : m.load cap a = 0 := if_neg (Nat.not_lt.2 h)

/-- Settles O9: a write outside `RUN` leaves the stored-to buffer, a read returns the load. -/
theorem hostBufferAccess : Obligations.HostBufferAccess := by
  refine ⟨fun p s a b rest hwf h => ⟨fun hr => ?_, fun hr => ⟨s.buf.store p.bufCap a b, ?_, ?_, fun ha x => ?_⟩⟩,
    fun p s a rest h => ⟨fun ha => ?_, fun ha => ?_⟩⟩
  · rw [turnStep_of_host p h]
    exact congrArg Host.Outcome.next (State.writeBuf_of_run p a b hr)
  · rw [turnStep_of_host p h]
    exact congrArg Host.Outcome.next (if_neg hr)
  · exact Memory.store_of_le s.buf b
  · rw [Memory.read_store hwf]
    simp [ha]
  · rw [turnStep_of_readBuf p h, Memory.load_of_lt s.buf ha]
  · rw [turnStep_of_readBuf p h, Memory.load_of_le s.buf ha]

/-! ## Writes of registers (R152) -/

/-- A register write during a parse is dropped, whatever the register (R157). -/
theorem hostStep_writeReg_of_run (p : Params) (n v : Nat) {s : State} (hr : s.state = .run) :
    hostStep p (.writeReg n v) s = .next s := by
  rw [hostStep]
  split
  · rw [decodeCtrl_ofNat]
    split
    · exact exec_start_of_run _ hr
    · exact exec_setDiscard_of_run _ hr
  · rw [State.writeReg_of_run p n v hr]

/-- A write of `CTRL` with bit 0 clear outside `RUN`. -/
theorem turnStep_of_writeDiscard (p : Params) {s : State} {v : Nat} {rest : List Turn} (hr : s.state ≠ .run)
    (hv : v.testBit 0 = false) (h : s.turns = .host (.writeReg 0 v) :: rest) :
    turnStep p s = .next { s with turns := rest, discard := v.testBit 1 } := by
  rw [turnStep_of_host p h, hostStep, if_pos rfl, decodeCtrl_ofNat, hv]
  exact exec_setDiscard_of_not_run _ hr

/-- A write of `LEN` outside `RUN`. -/
theorem turnStep_of_writeLen (p : Params) {s : State} {v : Nat} {rest : List Turn} (hr : s.state ≠ .run)
    (h : s.turns = .host (.writeReg 2 v) :: rest) :
    turnStep p s = .next { s with turns := rest, len := v % 2 ^ p.lenW } := by
  rw [turnStep_of_host p h]
  exact congrArg Host.Outcome.next (if_neg hr)

/-- A write of any other register outside `RUN` is one of the result record. -/
theorem turnStep_of_writeRecord (p : Params) {s : State} {n v : Nat} {rest : List Turn} (hr : s.state ≠ .run)
    (h0 : n ≠ 0) (h2 : n ≠ 2) (h : s.turns = .host (.writeReg n v) :: rest) :
    turnStep p s = .next { s with turns := rest, record := s.record.write n v } := by
  rw [turnStep_of_host p h, hostStep, if_neg h0, State.writeReg, if_neg hr, if_neg h2]

/-- A number that names no result register writes none. -/
theorem Record.write_of_not_mem (r : Record) {n : Nat} (v : Nat) (h : n ∉ [8, 9, 10, 11, 12, 13, 14]) :
    r.write n v = r := by
  unfold Record.write
  split
  case h_8 => rfl
  all_goals exact absurd (by decide) h

/-- Settles O46: the write of `CTRL`, that of `LEN`, and for every other number that of the record. -/
theorem hostRegisterWrites : Obligations.HostRegisterWrites := by
  intro p s n v rest h
  refine ⟨fun hr => ?_, fun hr => ?_⟩
  · rw [turnStep_of_host p h]
    exact hostStep_writeReg_of_run p n v hr
  · have hrecord (h0 : n ≠ 0) (h2 : n ≠ 2) := turnStep_of_writeRecord p hr h0 h2 h
    refine ⟨?_, ?_, ?_, ?_, ?_, ?_, ?_, ?_, ?_, fun hn => ?_⟩
    · rintro rfl hv
      exact turnStep_of_writeDiscard p hr hv h
    · rintro rfl
      exact turnStep_of_writeLen p hr h
    iterate 7
      · rintro rfl
        exact hrecord (by decide) (by decide)
    · simp only [List.mem_cons, not_or] at hn
      obtain ⟨h0, h2, hresult⟩ := hn
      rw [hrecord h0 h2, Record.write_of_not_mem s.record v (by simpa using hresult)]

/-- Settles O41: the write of `LEN` after a parse leaves `STATE` and `CURSOR`. -/
theorem lenWriteAfterAParsePassesTheCursor : Obligations.LenWriteAfterAParsePassesTheCursor :=
  fun p _ _ _ hdone h hlt => ⟨_, turnStep_of_writeLen p (by rw [hdone]; decide) h, hdone, hlt⟩

/-! ## Reads of registers (R155) -/

theorem State.ctrlWord_toNat (s : State) : s.ctrlWord.toNat = if s.discard then 2 else 0 := by
  unfold State.ctrlWord
  cases s.discard <;> rfl

/-- The reserved numbers read 0 (10_state.md R29). -/
theorem State.readReg_of_reserved (s : State) {n : Nat} (h : n ∈ [6, 7, 15] ∨ 15 < n) : s.readReg n = 0 := by
  unfold State.readReg
  split
  case h_14 => rfl
  all_goals exact absurd h (by decide)

/-- Settles O47: the reply's value is `State.readReg`, number by number. -/
theorem hostRegisterReads : Obligations.HostRegisterReads := by
  intro p s n rest h
  refine ⟨_, turnStep_of_readReg p h, ?_, ?_, ?_, ?_, ?_, ?_, ?_, ?_, ?_, ?_, ?_, ?_, ?_,
    State.readReg_of_reserved _⟩
  · rintro rfl
    exact State.ctrlWord_toNat _
  all_goals
    rintro rfl
    rfl

/-! ## Any number of commands during a parse (R157) -/

/-- During a parse a host command adds a reply at most. -/
theorem hostStep_of_run (p : Params) (c : HostCommand) {s : State} (hr : s.state = .run) :
    ∃ r, hostStep p c s = .next { s with replies := s.replies ++ r } := by
  cases c with
  | writeReg n v => exact ⟨[], by rw [hostStep_writeReg_of_run p n v hr, List.append_nil]⟩
  | readReg n => exact ⟨_, rfl⟩
  | writeBuf a b => exact ⟨[], by rw [hostStep, State.writeBuf_of_run p a b hr, List.append_nil]⟩
  | readBuf a => exact ⟨_, rfl⟩

/-- Settles O44, by induction on the list of commands. -/
theorem hostCommandsDuringRunChangeNothing : Obligations.HostCommandsDuringRunChangeNothing := by
  intro p cs
  induction cs with
  | nil =>
    intro s rest _ h
    refine ⟨[], congrArg Host.Outcome.next ?_⟩
    rw [List.append_nil, ← show s.turns = rest from h]
  | cons c cs ih =>
    intro s rest hr h
    obtain ⟨r, hc⟩ := hostStep_of_run p c (s := { s with turns := cs.map .host ++ rest }) hr
    have hstep : (coreOf p).step s = .next { s with turns := cs.map .host ++ rest, replies := s.replies ++ r } :=
      (turnStep_of_host p h).trans hc
    obtain ⟨r', hrun⟩ := ih { s with turns := cs.map .host ++ rest, replies := s.replies ++ r } rest hr rfl
    refine ⟨r ++ r', ?_⟩
    rw [List.length_cons, Host.Core.run, hstep, ← List.append_assoc]
    exact hrun

end Sys2Proof.Machine

/-! PROOFS. `DISCARD` and the result record steer nothing (O27, O42). -/

namespace Sys2Proof.Machine

/-! ## Under `DISCARD` the record is kept (45_host_commands.md R153) -/

theorem ieNext_record_of_discard (i : Instr) {s : State} (hd : s.discard = true) :
    (ieNext i s).record = s.record := by
  rcases ieNext_cases i s with ⟨-, e⟩ | ⟨-, -, -, e⟩ | ⟨-, -, e⟩
  · rw [e]; rfl
  · rw [e]; rfl
  · rw [e, effect_record, if_pos hd]

/-- Settles O27: a failure writes no register, and the effect's write is guarded. -/
theorem discardKeepsTheRecord : Obligations.DiscardKeepsTheRecord := by
  intro i s t hi hd h
  rw [exec_eq_next_ieNext s hi] at h
  cases h
  exact ieNext_record_of_discard i hd

theorem parserNext_discard (p : Ids) (s : State) : (parserNext p s).discard = s.discard := by
  rcases parserNext_cases p s with ⟨-, e⟩ | ⟨-, -, e⟩ | ⟨-, -, e⟩ | ⟨-, -, e⟩
  · rw [e]
  · rw [e]; rfl
  · rw [e]; rfl
  · obtain ⟨-, -, hdiscard⟩ := ieNext_inputs (isIE_of_metIn (metIn_decodeDescriptor p s.mode s.descriptor)) s
    rw [e, hdiscard]

theorem parserNext_record_of_discard (p : Ids) {s : State} (hd : s.discard = true) :
    (parserNext p s).record = s.record := by
  rcases parserNext_cases p s with ⟨-, e⟩ | ⟨-, -, e⟩ | ⟨-, -, e⟩ | ⟨-, -, e⟩
  · rw [e]
  · rw [e]; rfl
  · rw [e]; rfl
  · rw [e, ieNext_record_of_discard _ hd]

/-! ## The walk does not look at either (40_walker.md R102) -/

/-- The same state with another `DISCARD` and another result record. -/
def State.withResults (discard : Bool) (r : Record) (s : State) : State := { s with discard := discard, record := r }

theorem State.sameWalk_iff_withResults (s t : State) : s.sameWalk t ↔ t = s.withResults t.discard t.record := by
  refine ⟨fun h => ?_, fun h => ?_⟩
  · rw [← h]; rfl
  · rw [h]; rfl

theorem State.writeRecord_withResults (f : Record → Record) (discard : Bool) (r : Record) (s : State) :
    State.writeRecord f (s.withResults discard r) =
      (s.writeRecord f).withResults discard (if discard then r else f r) := by
  rw [State.writeRecord_eq, State.writeRecord_eq]; rfl

theorem State.nestedTail_withResults (len n : Nat) (discard : Bool) (r : Record) (s : State) :
    State.nestedTail len n (s.withResults discard r) = (s.nestedTail len n).withResults discard r := by
  unfold State.nestedTail
  rw [State.withResults]
  split
  · rfl
  · split <;> rfl

/-- What an IE writes comes from the buffer alone. -/
theorem recordWrite_withResults (i : Instr) (discard : Bool) (r : Record) (s : State) :
    recordWrite i (s.withResults discard r) = recordWrite i s := rfl

/-- The effect of an IE, but for the result record, is the same with another `DISCARD` and another record. -/
theorem effect_withResults {i : Instr} {m : Mode} (hm : metIn i = some m) (discard : Bool) (r : Record) (s : State) :
    ∃ r', effect i (s.withResults discard r) = (effect i s).withResults discard r' := by
  cases m with
  | nested =>
    rw [effect_of_metIn_nested hm, effect_of_metIn_nested hm, recordWrite_withResults,
      State.writeRecord_withResults, State.nestedTail_withResults]
    exact ⟨_, rfl⟩
  | notNested =>
    cases i with
    | hieAcknackTc len =>
      rw [effect, effect, recordWrite_withResults, State.writeRecord_withResults]
      exact ⟨_, rfl⟩
    | hieListTerm2 len => exact ⟨r, rfl⟩
    | hieListTerm1 len => exact ⟨r, rfl⟩
    | hieOther id len => exact ⟨r, rfl⟩
    | pieMlme len => exact ⟨r, rfl⟩
    | pieOther id len => exact ⟨r, rfl⟩
    | _ => cases hm

theorem ieNext_withResults {i : Instr} {m : Mode} (hm : metIn i = some m) (discard : Bool) (r : Record) (s : State) :
    ∃ r', ieNext i (s.withResults discard r) = (ieNext i s).withResults discard r' := by
  rcases ieNext_cases i s with ⟨hlt, e⟩ | ⟨hle, hreq, hne, e⟩ | ⟨hle, hreq, e⟩
  · rw [e]; exact ⟨r, ieNext_of_truncated hlt⟩
  · rw [e]; exact ⟨r, ieNext_of_wrong_size hle hreq hne⟩
  · obtain ⟨r', h⟩ := effect_withResults hm discard r s
    rw [e]
    exact ⟨r', (ieNext_of_accepted (s := s.withResults discard r) hle hreq).trans h⟩

theorem parserNext_withResults (p : Ids) (discard : Bool) (r : Record) (s : State) :
    ∃ r', parserNext p (s.withResults discard r) = (parserNext p s).withResults discard r' := by
  rcases parserNext_cases p s with ⟨hr, e⟩ | ⟨hr, h0, e⟩ | ⟨hr, h1, e⟩ | ⟨hr, h2, e⟩
  · rw [e]; exact ⟨r, parserNext_of_not_run p hr⟩
  · rw [e]; exact ⟨r, parserNext_of_exhausted p hr h0⟩
  · rw [e]; exact ⟨r, parserNext_of_lone_byte p hr h1⟩
  · obtain ⟨r', h⟩ := ieNext_withResults (metIn_decodeDescriptor p s.mode s.descriptor) discard r s
    rw [e]
    exact ⟨r', (parserNext_of_bytesLeft p (s := s.withResults discard r) hr h2).trans h⟩

/-- The parser's turn keeps two states alike but for `DISCARD` and the result record. -/
theorem sameWalk_parserNext (p : Ids) {s t : State} (h : s.sameWalk t) : (parserNext p s).sameWalk (parserNext p t) := by
  obtain ⟨r', hnext⟩ := parserNext_withResults p t.discard t.record s
  rw [(s.sameWalk_iff_withResults t).1 h, hnext]
  rfl

/-- Settles O42, by induction on the number of steps: each turn keeps the two alike, and the record under `DISCARD`. -/
theorem discardAndRecordSteerNothing : Obligations.DiscardAndRecordSteerNothing := by
  intro p k
  induction k with
  | zero => exact fun s t _ h => ⟨s, t, rfl, rfl, h, fun _ => rfl⟩
  | succ k ih =>
    intro s t hs h
    have ht : t.turns = [] := by rw [(s.sameWalk_iff_withResults t).1 h]; exact hs
    obtain ⟨-, -, hturns⟩ := parserNext_frame p.ids s
    obtain ⟨s', t', hs', ht', hwalk, hrecord⟩ := ih _ _ (hturns.trans hs) (sameWalk_parserNext p.ids h)
    rw [run_succ_of_turns_nil p k hs, run_succ_of_turns_nil p k ht]
    refine ⟨s', t', hs', ht', hwalk, fun hd => ?_⟩
    calc t'.record = (parserNext p.ids t).record := hrecord ((parserNext_discard p.ids t).trans hd)
      _ = t.record := parserNext_record_of_discard p.ids hd

end Sys2Proof.Machine

/-! SUPPORT. The failure that a step reports, branch by branch of the fixed order of 60_exceptions.md R176, and that the
parser's turn of a running parse enters that failure or none. -/

namespace Sys2Proof.Machine

/-! ## The branches of the fixed order -/

theorem State.reportedFailure_of_cursor_eq_len {s : State} (i : Instr) (hc : s.cursor = s.len) :
    s.reportedFailure i = none := if_pos hc

theorem State.reportedFailure_of_lone_byte {s : State} (i : Instr) (h1 : s.cursor + 1 = s.len) :
    s.reportedFailure i = some .truncatedDescriptor := by
  rw [State.reportedFailure, if_neg (by omega), if_pos h1]

theorem State.reportedFailure_of_truncated {s : State} {i : Instr} (h2 : s.bytesLeft 2)
    (h : ¬ s.bytesLeft (2 + i.declaredLen)) : s.reportedFailure i = some .truncatedPayload := by
  rw [State.reportedFailure, if_neg (by omega), if_neg (by omega), if_pos h]

theorem State.reportedFailure_of_wrong_size {s : State} {i : Instr} (h : s.bytesLeft (2 + i.declaredLen))
    (hreq : i.requiredLen ≠ none) (hne : i.requiredLen ≠ some i.declaredLen) :
    s.reportedFailure i = some .invalidLength := by
  rw [State.reportedFailure, if_neg (by omega), if_neg (by omega), if_neg (not_not_intro h), if_pos ⟨hreq, hne⟩]

/-- An IE in bounds and of its required size can only overrun its group. -/
theorem State.reportedFailure_of_admitted {s : State} {i : Instr} (h : s.bytesLeft (2 + i.declaredLen))
    (hsize : i.requiredLen = none ∨ i.requiredLen = some i.declaredLen) :
    s.reportedFailure i =
      if s.mlmeRem ≠ 0 ∧ s.mlmeRem.toNat < 2 + i.declaredLen then some .overrunNestedGroup else none := by
  rw [State.reportedFailure, if_neg (by omega), if_neg (by omega), if_neg (not_not_intro h),
    if_neg fun hwrong => hsize.elim hwrong.1 hwrong.2]

/-- Of the branches only that of the lone byte reports `TruncatedDescriptor` (60_exceptions.md R171). -/
theorem State.lone_byte_of_reportedFailure {s : State} {i : Instr}
    (h : s.reportedFailure i = some .truncatedDescriptor) : s.cursor + 1 = s.len := by
  by_contra hne
  unfold State.reportedFailure at h
  split_ifs at h <;> cases h

/-! ## What the parser's turn does about it -/

/-- What a step does about the failure it reports (60_exceptions.md R175): it raises it with no register written, or with
those of an overrunning sub-IE written; with none to report, it enters no failure. -/
inductive FailureEntry (s : State) (i : Instr) (t : State) : Prop
  | plain (e : ParseFailure) (hrep : s.reportedFailure i = some e) (hne : e ≠ .overrunNestedGroup)
    (ht : t = s.raise e)
  | overrun (hrep : s.reportedFailure i = some .overrunNestedGroup)
    (ht : t = State.raise .overrunNestedGroup { s with record := s.acceptedRecord i })
  | clean (hrep : s.reportedFailure i = none) (hstate : t.state ≠ .error) (herr : t.err = s.err)

/-- The effect of an admitted IE enters a failure exactly when a group is open and its budget is too small. -/
theorem EffectMove.failureEntry {s t : State} {i : Instr} (hmove : EffectMove s i t) (hm : metIn i = some s.mode)
    (hr : s.state = .run) (h : s.bytesLeft (2 + i.declaredLen))
    (hsize : i.requiredLen = none ∨ i.requiredLen = some i.declaredLen) : FailureEntry s i t := by
  have hrep := State.reportedFailure_of_admitted h hsize
  have top (hnot : metIn i = some .notNested) : s.reportedFailure i = none := by
    have hclosed : s.mlmeRem = 0 := s.mode_eq_notNested_iff.1 (Option.some.inj (hm.symm.trans hnot))
    rw [hrep, if_neg fun hover => hover.1 hclosed]
  have fits (hle : 2 + i.declaredLen ≤ s.mlmeRem.toNat) : s.reportedFailure i = none := by
    rw [hrep, if_neg fun hover => hle.not_gt hover.2]
  cases hmove with
  | listTerm len => exact .clean (top rfl) nofun rfl
  | openGroup len => exact .clean (top rfl) (by simp [hr]) rfl
  | pass i hnot hterm hmlme => exact .clean (top hnot) (by simp [hr]) (by simp)
  | overrun i hnested hlt =>
    have hopen : s.mlmeRem ≠ 0 := s.mode_eq_nested_iff.1 (Option.some.inj (hm.symm.trans hnested))
    exact .overrun (hrep.trans (if_pos ⟨hopen, hlt⟩)) (congrArg _ (State.writeRecord_recordWrite i s))
  | closeGroup i hnested heq => exact .clean (fits heq.ge) nofun (by simp)
  | keepGroup i hnested hlt => exact .clean (fits hlt.le) (by simp [hr]) (by simp)

/-- The parser's turn of a running parse enters the failure that the fixed order reports, or none. -/
theorem parserNext_failureEntry (p : Ids) {s : State} (hr : s.state = .run) (hc : s.cursor ≤ s.len) :
    FailureEntry s (decodeDescriptor p s.mode s.descriptor) (parserNext p s) := by
  have hm := metIn_decodeDescriptor p s.mode s.descriptor
  rcases parserNext_cases p s with ⟨hnr, -⟩ | ⟨-, h0, e⟩ | ⟨-, h1, e⟩ | ⟨-, h2, e⟩
  · exact absurd hr hnr
  · have hend : s.cursor = s.len := by unfold State.rem0 at h0; omega
    rw [e]
    exact .clean (State.reportedFailure_of_cursor_eq_len _ hend) nofun rfl
  · have hlone : s.cursor + 1 = s.len := by unfold State.rem0 at h1; omega
    exact .plain _ (State.reportedFailure_of_lone_byte _ hlone) nofun e
  · rw [e]
    rcases ieNext_cases (decodeDescriptor p s.mode s.descriptor) s with
      ⟨hlt, e⟩ | ⟨hle, hreq, hne, e⟩ | ⟨hle, hsize, e⟩
    · exact .plain _ (State.reportedFailure_of_truncated h2 ((State.rem_lt_iff h2 _).1 hlt)) nofun e
    · exact .plain _ (State.reportedFailure_of_wrong_size ((State.le_rem_iff h2 _).1 hle) hreq hne) nofun e
    · rw [e]
      exact (effectMove_effect hm s).failureEntry hm hr ((State.le_rem_iff h2 _).1 hle) hsize

/-- From a state with no failure the step's `ERR` is the failure that it reports. -/
theorem FailureEntry.err {s t : State} {i : Instr} (h : FailureEntry s i t) (hs : s.err = none) :
    t.err = s.reportedFailure i := by
  cases h with
  | plain e hrep hne ht => rw [ht, hrep]; rfl
  | overrun hrep ht => rw [ht, hrep]; rfl
  | clean hrep hstate herr => rw [herr, hs, hrep]

end Sys2Proof.Machine

/-! PROOFS. Which failure a step of a running parse reports, and what its entry leaves (O31, O32, O33). -/

namespace Sys2Proof.Machine

/-- Settles O32: the parser's turn always answers, and enters the failure that the fixed order reports. -/
theorem failuresAreReportedInTheFixedOrder : Obligations.FailuresAreReportedInTheFixedOrder := by
  intro p s h hr
  obtain ⟨herr, -, -⟩ := h.statusLaws.of_run hr
  exact ⟨_, parserStep_eq_next_parserNext p.ids s, (parserNext_failureEntry p.ids hr (h.cursorLe hr)).err herr⟩

/-- Settles O31: the lone byte is its own branch of the turn, and of the fixed order (O32) the only one with this
failure. -/
theorem loneByteIsTruncatedDescriptor : Obligations.LoneByteIsTruncatedDescriptor := by
  intro p s h hr
  refine ⟨fun hlone => ?_, fun t hstep herr => ?_⟩
  · have h1 : s.rem0 = 1 := by unfold State.rem0; omega
    rw [parserStep_eq_next_parserNext, parserNext_of_lone_byte p.ids hr h1]
    rfl
  · obtain ⟨t', hstep', hrep⟩ := failuresAreReportedInTheFixedOrder p s h hr
    rw [hstep] at hstep'
    cases hstep'
    exact State.lone_byte_of_reportedFailure (hrep.symm.trans herr)

/-- Settles O33: the two ways into `ERROR` differ in the record only, and there the parser is disabled. -/
theorem failureEntryChangesOnlyErrAndState : Obligations.FailureEntryChangesOnlyErrAndState := by
  intro p s t h hr hstep herror
  obtain ⟨-, hend, hconsumed⟩ := h.statusLaws.of_run hr
  have hdisabled : parserStep p.ids t = .next t := by
    rw [parserStep_eq_next_parserNext, parserNext_of_not_run p.ids (by simp [herror])]
  rw [parserStep_eq_next_parserNext] at hstep
  cases hstep
  cases parserNext_failureEntry p.ids hr (h.cursorLe hr) with
  | plain e hrep hne ht =>
    rw [ht] at hdisabled ⊢
    exact ⟨rfl, nofun, fun _ => rfl, fun hover => absurd (Option.some.inj hover) hne, hconsumed, hend, hdisabled⟩
  | overrun hrep ht =>
    rw [ht] at hdisabled ⊢
    exact ⟨rfl, nofun, fun hne => absurd rfl hne, fun _ => rfl, hconsumed, hend, hdisabled⟩
  | clean hrep hstate herr => exact absurd herror hstate

end Sys2Proof.Machine

/-! PROOFS. A reset event from any state (O49): what the turn leaves, and that a canonical buffer can be drawn. -/

namespace Sys2Proof.Machine

/-! ## Every canonical buffer can be drawn -/

/-- A byte stored above every listed offset becomes the last cell. -/
theorem Memory.write_above {m : Memory} {a : Nat} {b : Byte} (hb : b ≠ Config.unwrittenByte) (h : ∀ c ∈ m, c.1 < a) :
    m.write a b = m ++ [(a, b)] := by
  induction m with
  | nil => exact if_neg hb
  | cons c m ih =>
    obtain ⟨k, v⟩ := c
    obtain ⟨hk, hm⟩ := List.forall_mem_cons.1 h
    rw [Memory.write, if_neg (Nat.lt_asymm hk), if_neg (Nat.ne_of_gt hk), ih hm]
    rfl

/-- Storing the cells of a canonical buffer, all above what is listed already, appends them. -/
theorem Memory.foldl_store_above {cap : Nat} {cells : Memory} (hwf : cells.wf cap = true) {m : Memory}
    (h : ∀ c ∈ m, ∀ d ∈ cells, c.1 < d.1) :
    cells.foldl (fun m c => Memory.store cap m c.1 c.2) m = m ++ cells := by
  induction cells generalizing m with
  | nil => exact (List.append_nil m).symm
  | cons d cells ih =>
    obtain ⟨a, b⟩ := d
    obtain ⟨ha, hb, habove, hwf⟩ := (Memory.wf_cons_iff a b cells).1 hwf
    have hstore : m.store cap a b = m ++ [(a, b)] :=
      (if_pos ha).trans (Memory.write_above hb fun c hc => h c hc (a, b) List.mem_cons_self)
    have hrest : ∀ c ∈ m ++ [(a, b)], ∀ d ∈ cells, c.1 < d.1 := by
      intro c hc d hd
      rcases List.mem_append.1 hc with hc | hc
      · exact h c hc d (List.mem_cons_of_mem _ hd)
      · rw [List.mem_singleton.1 hc]
        exact habove d hd
    rw [List.foldl_cons, hstore, ih hwf hrest, List.append_assoc]
    rfl

/-- A buffer in canonical form is what storing its own cells leaves. -/
theorem Memory.ofCells_of_wf {cap : Nat} {cells : Memory} (hwf : cells.wf cap = true) :
    Memory.ofCells cap cells = cells := Memory.foldl_store_above hwf (m := []) nofun

/-! ## The state after the event -/

@[simp] theorem State.takeReset_mode (p : Params) (d : ResetDraw) (s : State) : (s.takeReset p d).mode = .notNested := rfl

/-- The four fields of `STATUS` are 0 each. -/
@[simp] theorem State.takeReset_statusWord (p : Params) (d : ResetDraw) (s : State) : (s.takeReset p d).statusWord = 0 := by
  have hnested : (s.takeReset p d).nestedBit = false := rfl
  rw [State.statusWord, hnested, State.takeReset_endCause, State.takeReset_err, State.takeReset_state]
  rfl

/-- `IDLE` is outside `RUN`, so the parser is disabled after a reset. -/
theorem parserStep_of_takeReset (p : Params) (d : ResetDraw) (s : State) :
    parserStep p.ids (s.takeReset p d) = .next (s.takeReset p d) := by
  rw [parserStep_eq_next_parserNext, parserNext_of_not_run p.ids (by simp)]

/-- Settles O49: the reset event takes the reset, whose draw is canonical always and stays as it is where it was already. -/
theorem resetFromAnyState : Obligations.ResetFromAnyState := by
  intro p s d rest h
  exact ⟨_, turnStep_of_reset p h, rfl, rfl, rfl, rfl, rfl, rfl, rfl, rfl, State.takeReset_mode p d _,
    State.takeReset_statusWord p d _, rfl, Memory.ofCells_wf p.bufCap d.buf, Memory.ofCells_of_wf, rfl, rfl,
    parserStep_of_takeReset p d _⟩

end Sys2Proof.Machine
